-- ==== Sys2Proof/Word.lean ====
section
/-! DEFINITION. The words and the small fixed sets of names the spec uses: port words, widths, signednesses, types, byte
orders and operand classes (spec 00_scope.md R2 to R6, 10_state.md R21, 30_encoding.md R60 and R62). -/

namespace Sys2Proof

/-- A 64-bit operand or result word, as on the ports A, B and Y (R21, R22). -/
abbrev Word := BitVec 64

/-- A 16-bit command word, as on the port CMD (R21, R60). -/
abbrev CmdWord := BitVec 16

/-- A byte of a byte sequence (R42). -/
abbrev Byte := BitVec 8

/-- A width W (R2). -/
inductive Width where
  | w8
  | w16
  | w32
  | w64
deriving DecidableEq, Repr, Inhabited

/-- W, the source's BITS (R2, R4). -/
def Width.bits : Width → Nat
  | .w8 => 8
  | .w16 => 16
  | .w32 => 32
  | .w64 => 64

/-- BYTES = W / 8 (R2). -/
def Width.bytes (w : Width) : Nat := w.bits / 8

/-- A signedness S (R3). -/
inductive Signedness where
  | unsigned
  | signed
deriving DecidableEq, Repr, Inhabited

/-- A type (S, W) (R3). -/
structure Ty where
  sgn : Signedness
  width : Width
deriving DecidableEq, Repr, Inhabited

/-- BITS of a type (R4). -/
abbrev Ty.bits (t : Ty) : Nat := t.width.bits

/-- A byte order, the range of NATIVE_ENDIAN (R6). -/
inductive Endian where
  | little
  | big
deriving DecidableEq, Repr, Inhabited

/-- The operand class of an operation: which inputs it reads (R62). -/
inductive OpClass where
  | binary
  | shift
  | unary
deriving DecidableEq, Repr

end Sys2Proof
end

