-- ==== Sys2Proof/Syntax.lean ====
section
/-! DEFINITION. The instructions: one constructor for each row of spec/opcode_table.json. Each row leaves SGN and WSEL free,
and every value of both is legal with every row (spec 30_encoding.md R63, R64), so a constructor carries a type (S, W). -/

namespace Sys2Proof

/-- A legal command (op, W, S) (R68). -/
inductive Instr where
  /-- `add` (R100) -/
  | add (t : Ty)
  /-- `sub` (R103) -/
  | sub (t : Ty)
  /-- `mul` (R106) -/
  | mul (t : Ty)
  /-- `shl` (R121) -/
  | shl (t : Ty)
  /-- `shr` (R123) -/
  | shr (t : Ty)
  /-- `rotl` (R125) -/
  | rotl (t : Ty)
  /-- `rotr` (R126) -/
  | rotr (t : Ty)
  /-- `cnto`, the population count (R140) -/
  | cnto (t : Ty)
  /-- `cntz`, the count of zeros (R141) -/
  | cntz (t : Ty)
  /-- `clz` (R142) -/
  | clz (t : Ty)
  /-- `ctz` (R143) -/
  | ctz (t : Ty)
  /-- `clo` (R144) -/
  | clo (t : Ty)
  /-- `cto` (R145) -/
  | cto (t : Ty)
  /-- `rbit` (R160) -/
  | rbit (t : Ty)
  /-- `bswap` (R161) -/
  | bswap (t : Ty)
  /-- `tobe` (R163) -/
  | tobe (t : Ty)
  /-- `tole` (R164) -/
  | tole (t : Ty)
deriving DecidableEq, Repr

end Sys2Proof
end

