-- ==== Sys2Proof/Decode.lean ====
section
/-! DEFINITION. Decoding of a command word, total and refusing by name, and the encoder, both written from the tables of spec
30_encoding.md (R60, R61, R63, R64, R65, R68, R73). -/

namespace Sys2Proof

/-- Why a command word is illegal (R65). -/
inductive DecodeError where
  /-- RSV = CMD[15:8] is not 0 (R65 item 1) -/
  | reservedField
  /-- OP is a reserved value (R65 item 2) -/
  | reservedOp
deriving DecidableEq, Repr

/-- RSV, CMD[15:8] (R60). -/
def rsvField (cmd : CmdWord) : BitVec 8 := cmd.extractLsb' 8 8

/-- SGN, CMD[7] (R60). -/
def sgnField (cmd : CmdWord) : BitVec 1 := cmd.extractLsb' 7 1

/-- WSEL, CMD[6:5] (R60). -/
def wselField (cmd : CmdWord) : BitVec 2 := cmd.extractLsb' 5 2

/-- OP, CMD[4:0] (R60). -/
def opField (cmd : CmdWord) : BitVec 5 := cmd.extractLsb' 0 5

/-- The width a WSEL value selects (R63). -/
def widthOfWsel (f : BitVec 2) : Width :=
  match f.toNat with
  | 0 => .w8
  | 1 => .w16
  | 2 => .w32
  | _ => .w64

/-- The signedness an SGN value selects (R64). -/
def signednessOfSgn (f : BitVec 1) : Signedness :=
  match f.toNat with
  | 0 => .unsigned
  | _ => .signed

/-- OPTABLE: the operation an OP value selects, none for a reserved value (R61). -/
def opTable (f : BitVec 5) : Option (Ty → Instr) :=
  match f.toNat with
  | 0x00 => some .add
  | 0x01 => some .sub
  | 0x02 => some .mul
  | 0x03 => some .shl
  | 0x04 => some .shr
  | 0x05 => some .rotl
  | 0x06 => some .rotr
  | 0x08 => some .cnto
  | 0x09 => some .cntz
  | 0x0A => some .clz
  | 0x0B => some .ctz
  | 0x0C => some .clo
  | 0x0D => some .cto
  | 0x10 => some .rbit
  | 0x11 => some .bswap
  | 0x12 => some .tobe
  | 0x13 => some .tole
  | _ => none

/-- The decoder of R68: RSV first, then OP, then the type from WSEL and SGN. -/
def decode (cmd : CmdWord) : Except DecodeError Instr :=
  if rsvField cmd ≠ 0 then .error .reservedField
  else
    match opTable (opField cmd) with
    | none => .error .reservedOp
    | some op => .ok (op { sgn := signednessOfSgn (sgnField cmd), width := widthOfWsel (wselField cmd) })

/-- Whether a command word is legal (R65). -/
def legal (cmd : CmdWord) : Bool :=
  match decode cmd with
  | .ok _ => true
  | .error _ => false

/-- The instruction read from an instruction of `nbits` bits that are `w`, bit 0 the least significant bit of the command
word; every bit above `nbits` is 0. No command is longer than its one 16-bit word (R60, R69; log 18). -/
def decodeTableWord (nbits w : Nat) : Option Instr :=
  if nbits ≤ 16 then (decode (BitVec.ofNat 16 (w % 2 ^ nbits))).toOption else none

/-- The WSEL value of a width (R63). -/
def wselOfWidth : Width → BitVec 2
  | .w8 => 0b00
  | .w16 => 0b01
  | .w32 => 0b10
  | .w64 => 0b11

/-- The SGN value of a signedness (R64). -/
def sgnOfSignedness : Signedness → BitVec 1
  | .unsigned => 0
  | .signed => 1

/-- The OP value of an instruction (R61). -/
def Instr.op : Instr → BitVec 5
  | .add _ => 0x00
  | .sub _ => 0x01
  | .mul _ => 0x02
  | .shl _ => 0x03
  | .shr _ => 0x04
  | .rotl _ => 0x05
  | .rotr _ => 0x06
  | .cnto _ => 0x08
  | .cntz _ => 0x09
  | .clz _ => 0x0A
  | .ctz _ => 0x0B
  | .clo _ => 0x0C
  | .cto _ => 0x0D
  | .rbit _ => 0x10
  | .bswap _ => 0x11
  | .tobe _ => 0x12
  | .tole _ => 0x13

/-- The type of an instruction (R3). -/
def Instr.ty : Instr → Ty
  | .add t | .sub t | .mul t | .shl t | .shr t | .rotl t | .rotr t | .cnto t | .cntz t | .clz t | .ctz t | .clo t | .cto t
  | .rbit t | .bswap t | .tobe t | .tole t => t

/-- The operand class of an instruction (R61, R62). -/
def Instr.opClass : Instr → OpClass
  | .add _ | .sub _ | .mul _ => .binary
  | .shl _ | .shr _ | .rotl _ | .rotr _ => .shift
  | .cnto _ | .cntz _ | .clz _ | .ctz _ | .clo _ | .cto _ | .rbit _ | .bswap _ | .tobe _ | .tole _ => .unary

/-- The layout of format C: RSV = 0, SGN, WSEL, OP, from the most significant bit down (R60, R73). -/
def formatC (t : Ty) (op : BitVec 5) : CmdWord :=
  (0#8 ++ sgnOfSignedness t.sgn ++ wselOfWidth t.width ++ op : BitVec (8 + 1 + 2 + 5))

/-- The command word of an instruction (R73). -/
def encode (i : Instr) : CmdWord := formatC i.ty i.op

end Sys2Proof
end

