-- ==== Sys2Proof/Config.lean ====
section
/-! DEFINITION. What the spec leaves open: the two parameters that are fixed when the core is built (spec 00_scope.md R5, R6)
and the one value it leaves free, the text of a hard-failure message (93_implementation_defined.md §1). None of the three has
a body: no proof can see what it is. -/

namespace Sys2Proof

/-- The parameters of one built core (R5, R6), the `Params` of R23. A state carries them, so that a statement about every
state is one about every core (log 1). -/
structure Params where
  nativeEndian : Endian
  ptrBits : Width
deriving DecidableEq, Repr, Inhabited

/-- NATIVE_ENDIAN of the core at hand: OPEN (R6, decision D5). -/
opaque Config.nativeEndian : Endian

/-- PTR_BITS of the core at hand: OPEN, one of 8, 16, 32 and 64 (R5, decision D4). -/
opaque Config.ptrBits : Width

/-- The text of the message of a hard failure of an operation: any value (R184; 93_implementation_defined.md §1; log 11). -/
opaque Config.hardFailureMessage : Instr → String

/-- The parameters of the core at hand. -/
def Config.params : Params := { nativeEndian := Config.nativeEndian, ptrBits := Config.ptrBits }

end Sys2Proof
end

