-- ==== Sys2Proof/Machine/Program.lean ====
section
/-! DEFINITION. The requester's host program, assembled (spec 30_encoding.md R77): what its lines are once the assembler has
turned each command into a command word and each literal into the word it drives. -/

namespace Sys2Proof.Machine

/-- A host variable, held under a number; `varNumber` of Machine/Text.lean gives the number of a written name (log 9). -/
abbrev Var := Nat

/-- A source operand: a host variable or a driven word (R72). -/
inductive Src where
  /-- a host variable, whose 64-bit value is driven onto the port -/
  | var (x : Var)
  /-- a literal, as the word it is driven as -/
  | word (w : Word)
deriving DecidableEq, Repr

/-- A line of a host program (R77). -/
inductive Line where
  /-- `y = <mnemonic>.<type> <src1>[, <src2>]`: the command word, what is presented on A and, for two sources, on B -/
  | command (dst : Var) (cmd : CmdWord) (srcA : Src) (srcB : Option Src)
  /-- `y = <literal n>`, with the word zext_64(enc_64(n)) -/
  | setWord (dst : Var) (w : Word)
  /-- `if ovf goto M` (want = true) and `if !ovf goto M` (want = false) -/
  | ifOvf (want : Bool) (target : Nat)
  /-- `if ill goto M` -/
  | ifIll (target : Nat)
  /-- `if y == n goto M` -/
  | ifEq (x : Var) (w : Word) (target : Nat)
  /-- `if y != n goto M` -/
  | ifNe (x : Var) (w : Word) (target : Nat)
  /-- `goto M` -/
  | goto (target : Nat)
  /-- `halt` -/
  | halt
  /-- `fail "<message>"` -/
  | fail (message : String)
deriving DecidableEq, Repr

/-- The outcome of a run so far (R77). -/
inductive Status where
  /-- neither `halt` nor `fail` has been reached -/
  | running
  /-- `halt` was reached -/
  | done
  /-- `fail` was reached, or a hard failure ended the run (R184) -/
  | failed (message : String)
deriving DecidableEq, Repr

end Sys2Proof.Machine
end

