-- ==== Sys2Proof/Machine/State.lean ====
section
/-! DEFINITION. The state of the machine: the parameters of the built core, the core's ports, and the requester's state (spec
10_state.md R20 to R23 and R31; 30_encoding.md R77; 70_reset_and_hazards.md R220, R221), the reasons a step can stop, and the
state after reset. The core itself holds no state (R20): what is here is its ports and its requester. -/

namespace Sys2Proof.Machine

/-- The outputs of one command, (Y, OVF, ILL) (R22). -/
structure Out where
  y : Word
  ovf : Bool
  ill : Bool
deriving DecidableEq, Repr

/-- Why a step, or a result form of the consumer, stops with a fault. -/
inductive Fault where
  /-- Raised by a program line whose command the core answers with ILL = 1 (R27, R66, R201: "a model must treat ILL = 1 as a
  fault of the requester's step"). Safe: no claim can use an illegal command's outputs. -/
  | illegalCommand (cmd : CmdWord)
  /-- Raised by a program line that reads a host variable nothing has written (R77, R221). Safe. -/
  | unwrittenVariable (x : Var)
  /-- Raised by the step when the line index is outside the program (R77). Safe. -/
  | lineOutside (line : Nat)
  /-- Raised by the step after `halt` or `fail`: the run has ended and has no next line (R77; log 7). Safe. -/
  | runEnded
  /-- Raised by the consumer's `unchecked_*` form when its precondition is violated (R192). Safe. -/
  | uncheckedPrecondition
deriving DecidableEq, Repr

/-- Why the model gives no meaning. -/
inductive Refusal where
  /-- Raised by the dispatch for an instruction that has no meaning yet. Safe. -/
  | notModelled (mnemonic : String)
  /-- Raised by the consumer's saturating form of `shl` and `shr`, which the spec does not define (R190, decision D24). Safe. -/
  | saturatingShift
deriving DecidableEq, Repr

/-- The state: INVENTORY.md lists every field with its rule and its reset value. -/
structure State where
  /-- NATIVE_ENDIAN and PTR_BITS of the built core (R5, R6) -/
  params : Params
  /-- input port CMD (R21) -/
  portCmd : CmdWord
  /-- input port A (R21) -/
  portA : Word
  /-- input port B (R21) -/
  portB : Word
  /-- output ports Y, OVF and ILL, as last driven (R22; log 3) -/
  out : Out
  /-- the host program (R77) -/
  prog : List Line
  /-- the host variables that are written, by rising number, none twice (R77) -/
  vars : List (Var × Word)
  /-- the host bit `ovf` (R77) -/
  hostOvf : Bool
  /-- the host bit `ill` (R77) -/
  hostIll : Bool
  /-- the line index `L` (R77) -/
  line : Nat
  /-- whether the run goes on, and how it ended (R77) -/
  status : Status
deriving DecidableEq, Repr

/-- The machine when it is built: no program loaded, nothing written, line 0, the ports at 0 and the outputs at
CORE(0, 0, 0) (R31, R77, R220, R221; logs 1 to 5). -/
def State.reset : State where
  params := Config.params
  portCmd := 0
  portA := 0
  portB := 0
  out := { y := 0, ovf := false, ill := false }
  prog := []
  vars := []
  hostOvf := false
  hostIll := false
  line := 0
  status := .running

end Sys2Proof.Machine
end

