-- ==== Sys2Proof/Machine/Values.lean ====
section
/-! DEFINITION. Patterns and the integers they stand for (spec 00_scope.md R4, R7, R8, R9), and patterns given bit by bit
(00_scope.md §5). -/

namespace Sys2Proof.Machine

/-- A W-bit pattern (00_scope.md §5). -/
abbrev Pattern (w : Width) := BitVec w.bits

/-- MIN of a type (R4). -/
def minOf (t : Ty) : Int :=
  match t.sgn with
  | .unsigned => 0
  | .signed => -2 ^ (t.bits - 1)

/-- MAX of a type (R4). -/
def maxOf (t : Ty) : Int :=
  match t.sgn with
  | .unsigned => 2 ^ t.bits - 1
  | .signed => 2 ^ (t.bits - 1) - 1

/-- The unsigned value of a pattern (R7). -/
def uval {n : Nat} (p : BitVec n) : Int := p.toNat

/-- The two's-complement value of a pattern: the unsigned value less 2^W times the top bit (R7). -/
def sval {n : Nat} (p : BitVec n) : Int := uval p - 2 ^ n * p.msb.toNat

/-- The value of a pattern in a type (R7). -/
def val (t : Ty) (p : Pattern t.width) : Int :=
  match t.sgn with
  | .unsigned => uval p
  | .signed => sval p

/-- The `n`-bit pattern whose unsigned value is an integer modulo 2^n (R8). -/
def enc (n : Nat) (x : Int) : BitVec n := BitVec.ofNat n (x % 2 ^ n).toNat

/-- Whether MIN ≤ x ≤ MAX (R9). -/
def inRange (t : Ty) (x : Int) : Bool := decide (minOf t ≤ x) && decide (x ≤ maxOf t)

/-- Σ f(i)·2^i over i < n. -/
def bitsValue (f : Nat → Bool) : Nat → Nat
  | 0 => 0
  | n + 1 => bitsValue f n + (f n).toNat * 2 ^ n

/-- The `n`-bit pattern r with r[i] = f(i) for 0 ≤ i < n. -/
def patternOf (n : Nat) (f : Nat → Bool) : BitVec n := BitVec.ofNat n (bitsValue f n)

end Sys2Proof.Machine
end

