-- ==== Sys2Proof/Machine/Operands.lean ====
section
/-! DEFINITION. Operand extraction and result placement (spec 10_state.md R24, R25; 30_encoding.md R62, R67). -/

namespace Sys2Proof.Machine

/-- a = A[W-1:0] (R24). -/
def operandA (t : Ty) (a : Word) : Pattern t.width := a.setWidth t.bits

/-- b = B[W-1:0], read by add, sub and mul only (R24). -/
def operandB (t : Ty) (b : Word) : Pattern t.width := b.setWidth t.bits

/-- amt = uval_32(B[31:0]), read by shl, shr, rotl and rotr only, whatever the type (R24). -/
def amount (b : Word) : Nat := (b.setWidth 32).toNat

/-- amt mod W, the masked amount (R121, R123, R125, R126). -/
def maskedAmount (t : Ty) (b : Word) : Nat := amount b % t.bits

/-- zext_64 of a result pattern (R25). -/
def place {n : Nat} (r : BitVec n) : Word := r.setWidth 64

/-- `result(r); OVF <- ovf; ILL <- 0`, the end of every pseudocode block (00_scope.md §5.1, R25, R26, R27). -/
def result {n : Nat} (r : BitVec n) (ovf : Bool) : Out := { y := place r, ovf := ovf, ill := false }

/-- The outputs of an illegal command: Y = 0, OVF = 0, ILL = 1 (R27, R65, R202). -/
def illegalOut : Out := { y := 0, ovf := false, ill := true }

end Sys2Proof.Machine
end

