-- ==== Sys2Proof/Machine/Flags.lean ====
section
/-! DEFINITION. The computations of OVF (spec 10_state.md R26). OVF of an operation that cannot overflow is the constant
false; ILL is set by `result` and `illegalOut` (Operands.lean). -/

namespace Sys2Proof.Machine

/-- OVF of add, sub and mul: the exact result is outside [MIN, MAX] (R9, R100, R103, R106). -/
def rangeOverflow (t : Ty) (x : Int) : Bool := !inRange t x

/-- OVF of shl and shr: the amount is W or more, and nothing else (R120; 90_conflicts.md C2). -/
def amountOverflow (t : Ty) (b : Word) : Bool := decide (t.bits ≤ amount b)

end Sys2Proof.Machine
end

