-- ==== Sys2Proof/Machine/Ops.lean ====
section
/-! DEFINITION. The named operations over the state: driving the input ports, driving the outputs, the host variables and
the host's line index (spec 10_state.md R21, R22; 30_encoding.md R77). The core has no trap entry and no trap return (spec
60_exceptions.md R205), so no operation takes an exception. -/

namespace Sys2Proof.Machine

/-- The requester drives the input ports (R21). -/
def State.drive (s : State) (cmd : CmdWord) (a b : Word) : State := { s with portCmd := cmd, portA := a, portB := b }

/-- The core drives its outputs (R22). -/
def State.setOut (s : State) (o : Out) : State := { s with out := o }

/-- A command completes: its outputs are driven and nothing else happens (R20, R200). -/
def deliver (o : Out) (s : State) : Host.Outcome State Fault Refusal := .next (s.setOut o)

/-- The value of a host variable, none where nothing has written it (R77). -/
def lookupVar (x : Nat) : List (Nat × Word) → Option Word
  | [] => none
  | (k, w) :: rest => if x = k then some w else lookupVar x rest

/-- Writing a host variable, in rising order and with no number twice. -/
def insertVar (x : Nat) (w : Word) : List (Nat × Word) → List (Nat × Word)
  | [] => [(x, w)]
  | (k, v) :: rest =>
    if x < k then (x, w) :: (k, v) :: rest
    else if x = k then (x, w) :: rest
    else (k, v) :: insertVar x w rest

/-- Whether every number is above `lo` and the numbers rise. -/
def varsAbove (lo : Nat) : List (Nat × Word) → Bool
  | [] => true
  | (k, _) :: rest => decide (lo < k) && varsAbove k rest

/-- The canonical form of the host variables: the numbers rise strictly. -/
def varsWf : List (Nat × Word) → Bool
  | [] => true
  | (k, _) :: rest => varsAbove k rest

/-- The value of a host variable (R77). -/
def State.readVar (s : State) (x : Var) : Option Word := lookupVar x s.vars

/-- `y <- v` for a host variable (R77). -/
def State.writeVar (s : State) (x : Var) (w : Word) : State := { s with vars := insertVar x w s.vars }

/-- The value a source drives onto a port; a variable nothing has written faults (R72, R77). -/
def State.readSrc (s : State) : Src → Except Fault Word
  | .word w => .ok w
  | .var x =>
    match s.readVar x with
    | some w => .ok w
    | none => .error (.unwrittenVariable x)

/-- What a command line presents on B: its second source, or, with one source, what B already carries (log 8). -/
def State.readSrcB (s : State) : Option Src → Except Fault Word
  | none => .ok s.portB
  | some src => s.readSrc src

/-- `ovf <- OVF; ill <- ILL` for the host bits (R77). -/
def State.latchBits (s : State) : State := { s with hostOvf := s.out.ovf, hostIll := s.out.ill }

/-- `L <- M` (R77). -/
def State.goto (s : State) (target : Nat) : State := { s with line := target }

/-- `L <- L+1` (R77). -/
def State.advance (s : State) : State := s.goto (s.line + 1)

/-- `L <- M` if the condition holds, else `L <- L+1` (R77). -/
def State.branch (s : State) (cond : Bool) (target : Nat) : State := if cond then s.goto target else s.advance

/-- The run ends with an outcome; the line index stays (R77; log 13). -/
def State.finish (s : State) (st : Status) : State := { s with status := st }

end Sys2Proof.Machine
end

