-- ==== Sys2Proof/Machine/Arith.lean ====
section
/-! DEFINITION. add, sub and mul with overflow detection (spec 40_arith.md). -/

namespace Sys2Proof.Machine

/-- The exact integer a binary operation computes from the two operands' values. -/
def exact (f : Int → Int → Int) (t : Ty) (a b : Word) : Int := f (val t (operandA t a)) (val t (operandB t b))

/-- The common shape of add, sub and mul: the exact result, wrapped to W bits, with OVF when it is out of range (R108). -/
def arith (f : Int → Int → Int) (t : Ty) (a b : Word) : Out :=
  result (enc t.bits (exact f t a b)) (rangeOverflow t (exact f t a b))

/-- The outputs of `add` (R100). -/
def addOut (t : Ty) (a b : Word) : Out := arith (· + ·) t a b

/-- The outputs of `sub` (R103). -/
def subOut (t : Ty) (a b : Word) : Out := arith (· - ·) t a b

/-- The outputs of `mul` (R106). -/
def mulOut (t : Ty) (a b : Word) : Out := arith (· * ·) t a b

/-- `add` (R100). -/
def execAdd (t : Ty) (s : State) : Host.Outcome State Fault Refusal := deliver (addOut t s.portA s.portB) s

/-- `sub` (R103). -/
def execSub (t : Ty) (s : State) : Host.Outcome State Fault Refusal := deliver (subOut t s.portA s.portB) s

/-- `mul` (R106). -/
def execMul (t : Ty) (s : State) : Host.Outcome State Fault Refusal := deliver (mulOut t s.portA s.portB) s

end Sys2Proof.Machine
end

