-- ==== Sys2Proof/Machine/BitOrder.lean ====
section
/-! DEFINITION. Bit reversal, byte swap and the conversions between native and big- or little-endian order (spec
43_bitorder_bytes.md). -/

namespace Sys2Proof.Machine

/-- r[i] = a[W-1-i] (R160). -/
def rbitValue (w : Width) (a : Pattern w) : Pattern w := patternOf w.bits fun i => a.getLsbD (w.bits - 1 - i)

/-- byte_k(r) = byte_(BYTES-1-k)(a), so that bit 8k+j of r is bit 8(BYTES-1-k)+j of a (R161). -/
def bswapValue (w : Width) (a : Pattern w) : Pattern w :=
  patternOf w.bits fun i => a.getLsbD (8 * (w.bytes - 1 - i / 8) + i % 8)

/-- The value of `tobe` for a native order (R163). -/
def tobeValue (e : Endian) (w : Width) (a : Pattern w) : Pattern w :=
  match e with
  | .big => a
  | .little => bswapValue w a

/-- The value of `tole` for a native order (R164). -/
def toleValue (e : Endian) (w : Width) (a : Pattern w) : Pattern w :=
  match e with
  | .little => a
  | .big => bswapValue w a

/-- The outputs of `rbit` (R160). -/
def rbitOut (t : Ty) (a : Word) : Out := result (rbitValue t.width (operandA t a)) false

/-- The outputs of `bswap` (R161). -/
def bswapOut (t : Ty) (a : Word) : Out := result (bswapValue t.width (operandA t a)) false

/-- The outputs of `tobe` (R163). -/
def tobeOut (p : Params) (t : Ty) (a : Word) : Out := result (tobeValue p.nativeEndian t.width (operandA t a)) false

/-- The outputs of `tole` (R164). -/
def toleOut (p : Params) (t : Ty) (a : Word) : Out := result (toleValue p.nativeEndian t.width (operandA t a)) false

/-- `rbit` (R160). -/
def execRbit (t : Ty) (s : State) : Host.Outcome State Fault Refusal := deliver (rbitOut t s.portA) s

/-- `bswap` (R161). -/
def execBswap (t : Ty) (s : State) : Host.Outcome State Fault Refusal := deliver (bswapOut t s.portA) s

/-- `tobe` (R163). -/
def execTobe (t : Ty) (s : State) : Host.Outcome State Fault Refusal := deliver (tobeOut s.params t s.portA) s

/-- `tole` (R164). -/
def execTole (t : Ty) (s : State) : Host.Outcome State Fault Refusal := deliver (toleOut s.params t s.portA) s

end Sys2Proof.Machine
end

