-- ==== Sys2Proof/Machine/Counts.lean ====
section
/-! DEFINITION. The bit counts (spec 42_bitcount.md). Each is a count of the pattern, whatever the signedness (R146), placed as
enc_W of the count (R25). -/

namespace Sys2Proof.Machine

/-- How many i < n have f(i). -/
def countTrue (f : Nat → Bool) : Nat → Nat
  | 0 => 0
  | n + 1 => countTrue f n + (f n).toNat

/-- max of the i < n with f(i), none where there is none. -/
def highestTrue (f : Nat → Bool) : Nat → Option Nat
  | 0 => none
  | n + 1 => if f n then some n else highestTrue f n

/-- min of the i < n with f(i), none where there is none. -/
def lowestTrue (f : Nat → Bool) : Nat → Option Nat
  | 0 => none
  | n + 1 =>
    match lowestTrue f n with
    | some i => some i
    | none => if f n then some n else none

/-- Σ a[i], the population count (R140). -/
def onesCount {n : Nat} (a : BitVec n) : Nat := countTrue a.getLsbD n

/-- Σ (~a)[i] (R141). -/
def zerosCount {n : Nat} (a : BitVec n) : Nat := onesCount (~~~a)

/-- W for a = 0, else W - 1 - max of the i with a[i] = 1 (R142). -/
def leadingZeros {n : Nat} (a : BitVec n) : Nat :=
  match highestTrue a.getLsbD n with
  | none => n
  | some i => n - 1 - i

/-- W for a = 0, else min of the i with a[i] = 1 (R143). -/
def trailingZeros {n : Nat} (a : BitVec n) : Nat :=
  match lowestTrue a.getLsbD n with
  | none => n
  | some i => i

/-- The leading zeros of the complement (R144). -/
def leadingOnes {n : Nat} (a : BitVec n) : Nat := leadingZeros (~~~a)

/-- The trailing zeros of the complement (R145). -/
def trailingOnes {n : Nat} (a : BitVec n) : Nat := trailingZeros (~~~a)

/-- `result(enc_W(c)); OVF <- 0; ILL <- 0`. -/
def countResult (t : Ty) (c : Nat) : Out := result (enc t.bits c) false

/-- The outputs of `cnto` (R140). -/
def cntoOut (t : Ty) (a : Word) : Out := countResult t (onesCount (operandA t a))

/-- The outputs of `cntz` (R141). -/
def cntzOut (t : Ty) (a : Word) : Out := countResult t (zerosCount (operandA t a))

/-- The outputs of `clz` (R142). -/
def clzOut (t : Ty) (a : Word) : Out := countResult t (leadingZeros (operandA t a))

/-- The outputs of `ctz` (R143). -/
def ctzOut (t : Ty) (a : Word) : Out := countResult t (trailingZeros (operandA t a))

/-- The outputs of `clo` (R144). -/
def cloOut (t : Ty) (a : Word) : Out := countResult t (leadingOnes (operandA t a))

/-- The outputs of `cto` (R145). -/
def ctoOut (t : Ty) (a : Word) : Out := countResult t (trailingOnes (operandA t a))

/-- `cnto` (R140). -/
def execCnto (t : Ty) (s : State) : Host.Outcome State Fault Refusal := deliver (cntoOut t s.portA) s

/-- `cntz` (R141). -/
def execCntz (t : Ty) (s : State) : Host.Outcome State Fault Refusal := deliver (cntzOut t s.portA) s

/-- `clz` (R142). -/
def execClz (t : Ty) (s : State) : Host.Outcome State Fault Refusal := deliver (clzOut t s.portA) s

/-- `ctz` (R143). -/
def execCtz (t : Ty) (s : State) : Host.Outcome State Fault Refusal := deliver (ctzOut t s.portA) s

/-- `clo` (R144). -/
def execClo (t : Ty) (s : State) : Host.Outcome State Fault Refusal := deliver (cloOut t s.portA) s

/-- `cto` (R145). -/
def execCto (t : Ty) (s : State) : Host.Outcome State Fault Refusal := deliver (ctoOut t s.portA) s

end Sys2Proof.Machine
end

