-- ==== Sys2Proof/Machine/Shift.lean ====
section
/-! DEFINITION. Shifts and rotations (spec 41_shift_rotate.md). -/

namespace Sys2Proof.Machine

/-- The value of `shl` by a masked amount: bits shifted out are discarded, zeros enter at bit 0 (R121). -/
def shlValue (w : Width) (a : Pattern w) (s : Nat) : Pattern w := enc w.bits (uval a * 2 ^ s)

/-- The value of `shr` by a masked amount: floor division of the value by 2^s, so zeros enter for unsigned and copies of the
top bit for signed (R123). -/
def shrValue (t : Ty) (a : Pattern t.width) (s : Nat) : Pattern t.width := enc t.bits (val t a / 2 ^ s)

/-- The value of `rotl`: r[i] = a[(i - s) mod W], for s < W (R125). -/
def rotlValue (w : Width) (a : Pattern w) (s : Nat) : Pattern w :=
  patternOf w.bits fun i => a.getLsbD ((i + w.bits - s) % w.bits)

/-- The value of `rotr`: r[i] = a[(i + s) mod W] (R126). -/
def rotrValue (w : Width) (a : Pattern w) (s : Nat) : Pattern w :=
  patternOf w.bits fun i => a.getLsbD ((i + s) % w.bits)

/-- The outputs of `shl` (R120, R121). -/
def shlOut (t : Ty) (a b : Word) : Out := result (shlValue t.width (operandA t a) (maskedAmount t b)) (amountOverflow t b)

/-- The outputs of `shr` (R120, R123). -/
def shrOut (t : Ty) (a b : Word) : Out := result (shrValue t (operandA t a) (maskedAmount t b)) (amountOverflow t b)

/-- The outputs of `rotl` (R125). -/
def rotlOut (t : Ty) (a b : Word) : Out := result (rotlValue t.width (operandA t a) (maskedAmount t b)) false

/-- The outputs of `rotr` (R126). -/
def rotrOut (t : Ty) (a b : Word) : Out := result (rotrValue t.width (operandA t a) (maskedAmount t b)) false

/-- `shl` (R121). -/
def execShl (t : Ty) (s : State) : Host.Outcome State Fault Refusal := deliver (shlOut t s.portA s.portB) s

/-- `shr` (R123). -/
def execShr (t : Ty) (s : State) : Host.Outcome State Fault Refusal := deliver (shrOut t s.portA s.portB) s

/-- `rotl` (R125). -/
def execRotl (t : Ty) (s : State) : Host.Outcome State Fault Refusal := deliver (rotlOut t s.portA s.portB) s

/-- `rotr` (R126). -/
def execRotr (t : Ty) (s : State) : Host.Outcome State Fault Refusal := deliver (rotrOut t s.portA s.portB) s

end Sys2Proof.Machine
end

