-- ==== Sys2Proof/Machine/Dispatch.lean ====
section
/-! DEFINITION. One arm per instruction: each runs its meaning over the operands on the ports A and B of the state and leaves
its outputs on Y, OVF and ILL. -/

namespace Sys2Proof.Machine

def exec (i : Instr) (s : State) : Host.Outcome State Fault Refusal :=
  match i with
  | .add t => Sys2Proof.Machine.execAdd t s
  | .sub t => Sys2Proof.Machine.execSub t s
  | .mul t => Sys2Proof.Machine.execMul t s
  | .shl t => Sys2Proof.Machine.execShl t s
  | .shr t => Sys2Proof.Machine.execShr t s
  | .rotl t => Sys2Proof.Machine.execRotl t s
  | .rotr t => Sys2Proof.Machine.execRotr t s
  | .cnto t => Sys2Proof.Machine.execCnto t s
  | .cntz t => Sys2Proof.Machine.execCntz t s
  | .clz t => Sys2Proof.Machine.execClz t s
  | .ctz t => Sys2Proof.Machine.execCtz t s
  | .clo t => Sys2Proof.Machine.execClo t s
  | .cto t => Sys2Proof.Machine.execCto t s
  | .rbit t => Sys2Proof.Machine.execRbit t s
  | .bswap t => Sys2Proof.Machine.execBswap t s
  | .tobe t => Sys2Proof.Machine.execTobe t s
  | .tole t => Sys2Proof.Machine.execTole t s

end Sys2Proof.Machine
end

