-- ==== Sys2Proof/Machine/Requester.lean ====
section
/-! DEFINITION. The requester: presenting a command to the core, and the effect of each line of a host program (spec
30_encoding.md R77; 60_exceptions.md R200, R201). -/

namespace Sys2Proof.Machine

/-- The requester presents CMD, A and B and the core completes the command: a legal one runs, an illegal one gives Y = 0,
OVF = 0 and ILL = 1 (R200, R202). -/
def present (cmd : CmdWord) (a b : Word) (s : State) : Host.Outcome State Fault Refusal :=
  match decode cmd with
  | .ok i => exec i (s.drive cmd a b)
  | .error _ => deliver illegalOut (s.drive cmd a b)

/-- `y <- Y`, `ovf <- OVF`, `ill <- ILL`, `L <- L+1` (R77). -/
def State.latch (s : State) (dst : Var) : State := ((s.writeVar dst s.out.y).latchBits).advance

/-- A command line: both sources are read, the command is presented and its outputs are taken; ILL = 1 is a fault of the
requester's step (R77, R201; log 10). -/
def runCommand (dst : Var) (cmd : CmdWord) (srcA : Src) (srcB : Option Src) (s : State) :
    Host.Outcome State Fault Refusal :=
  match s.readSrc srcA, s.readSrcB srcB with
  | .error f, _ => .fault f
  | .ok _, .error f => .fault f
  | .ok a, .ok b =>
    match present cmd a b s with
    | .next s' => if s'.out.ill then .fault (.illegalCommand cmd) else .next (s'.latch dst)
    | .fault f => .fault f
    | .refused r => .refused r

/-- A line that compares a host variable with a word and branches (R77). -/
def compareBranch (x : Var) (target : Nat) (cond : Word → Bool) (s : State) : Host.Outcome State Fault Refusal :=
  match s.readVar x with
  | some v => .next (s.branch (cond v) target)
  | none => .fault (.unwrittenVariable x)

/-- The effect of one line (R77). -/
def runLine (l : Line) (s : State) : Host.Outcome State Fault Refusal :=
  match l with
  | .command dst cmd srcA srcB => runCommand dst cmd srcA srcB s
  | .setWord dst w => .next (s.writeVar dst w).advance
  | .ifOvf want target => .next (s.branch (s.hostOvf == want) target)
  | .ifIll target => .next (s.branch s.hostIll target)
  | .ifEq x w target => compareBranch x target (fun v => v == w) s
  | .ifNe x w target => compareBranch x target (fun v => v != w) s
  | .goto target => .next (s.goto target)
  | .halt => .next (s.finish .done)
  | .fail message => .next (s.finish (.failed message))

/-- A program with its start variables is loaded: the start list is written in order, so that the last entry for a variable
holds (log 24), the run starts at line 0 and the host bits at 0 (R77, R221; logs 4, 5). -/
def State.load (s : State) (prog : List Line) (start : List (Var × Word)) : State :=
  { s with
    prog := prog
    vars := start.foldl (fun vs kv => insertVar kv.1 kv.2 vs) []
    hostOvf := false
    hostIll := false
    line := 0
    status := .running }

/-- Line `n` of a program replaced, with `halt` lines before it where the program is shorter. -/
def setLine (l : Line) : Nat → List Line → List Line
  | 0, [] => [l]
  | 0, _ :: rest => l :: rest
  | n + 1, [] => .halt :: setLine l n []
  | n + 1, k :: rest => k :: setLine l n rest

/-- The line that presents a command word with the operands the ports A and B carry now and takes its result in variable 0
(log 19). -/
def State.fetchLine (s : State) (cmd : CmdWord) : Line := .command 0 cmd (.word s.portA) (some (.word s.portB))

/-- A command presented by one of several requesters (R51). -/
structure Request where
  requester : Nat
  cmd : CmdWord
  a : Word
  b : Word
deriving DecidableEq, Repr

/-- The commands of any number of requesters presented one after another to one core, with what each requester reads, in the
order they are presented (R50, R51). -/
def serve : List Request → State → List (Nat × Out)
  | [], _ => []
  | r :: rest, s =>
    match present r.cmd r.a r.b s with
    | .next s' => (r.requester, s'.out) :: serve rest s'
    | .fault _ => serve rest s
    | .refused _ => serve rest s

end Sys2Proof.Machine
end

