-- ==== Sys2Proof/Machine/Step.lean ====
section
/-! DEFINITION. One step of the machine: the requester executes the line of its program at its line index (spec 30_encoding.md
R77). -/

namespace Sys2Proof.Machine

/-- One line of the host program. A line index outside the program faults; after `halt` or `fail` there is no next line (R77;
log 7). -/
def step (s : State) : Host.Outcome State Fault Refusal :=
  match s.status with
  | .running =>
    match s.prog[s.line]? with
    | some l => runLine l s
    | none => .fault (.lineOutside s.line)
  | .done => .fault .runEnded
  | .failed _ => .fault .runEnded

/-- The state with an instruction placed where the next step takes its line: the line at the line index presents that command
word with the operands that A and B carry now, and the run goes on (log 4, log 19). -/
def State.withFetchWord (s : State) (nbits w : Nat) : State :=
  { s with
    prog := setLine (s.fetchLine (BitVec.ofNat 16 (w % 2 ^ nbits))) s.line s.prog
    status := .running }

end Sys2Proof.Machine
end

