-- ==== Sys2Proof/Machine/Bytes.lean ====
section
/-! DEFINITION. Byte numbering and byte sequences of a pattern (spec 20_memory.md R41 to R44). These are sequences of bytes, not
memory: the core reaches none (R40). -/

namespace Sys2Proof.Machine

/-- byte_k(p) = p[8k+7:8k] (R41). -/
def byteOf {n : Nat} (k : Nat) (p : BitVec n) : Byte := p.extractLsb' (8 * k) 8

/-- seq_BE(p), the most significant byte first (R42). -/
def seqBE (w : Width) (p : Pattern w) : List Byte := (List.range w.bytes).map fun i => byteOf (w.bytes - 1 - i) p

/-- seq_LE(p), the least significant byte first (R42). -/
def seqLE (w : Width) (p : Pattern w) : List Byte := (List.range w.bytes).map fun i => byteOf i p

/-- seq_NE(p), the order of NATIVE_ENDIAN (R43). -/
def seqNE (e : Endian) (w : Width) (p : Pattern w) : List Byte :=
  match e with
  | .little => seqLE w p
  | .big => seqBE w p

/-- The source's `from_le_bytes` (R44). -/
def ofSeqLE (w : Width) (s : List Byte) : Pattern w := patternOf w.bits fun i => (s.getD (i / 8) 0).getLsbD (i % 8)

/-- The source's `from_be_bytes` (R44). -/
def ofSeqBE (w : Width) (s : List Byte) : Pattern w :=
  patternOf w.bits fun i => (s.getD (w.bytes - 1 - i / 8) 0).getLsbD (i % 8)

/-- The source's `from_ne_bytes` (R44). -/
def ofSeqNE (e : Endian) (w : Width) (s : List Byte) : Pattern w :=
  match e with
  | .little => ofSeqLE w s
  | .big => ofSeqBE w s

end Sys2Proof.Machine
end

