-- ==== Sys2Proof/Machine/CoreFn.lean ====
section
/-! DEFINITION. The core as the total function CORE(CMD, A, B) = (Y, OVF, ILL) of spec 10_state.md R23, over the parameters of
the built core. -/

namespace Sys2Proof.Machine

/-- The outputs of a legal command. -/
def opOut (p : Params) (i : Instr) (a b : Word) : Out :=
  match i with
  | .add t => addOut t a b
  | .sub t => subOut t a b
  | .mul t => mulOut t a b
  | .shl t => shlOut t a b
  | .shr t => shrOut t a b
  | .rotl t => rotlOut t a b
  | .rotr t => rotrOut t a b
  | .cnto t => cntoOut t a
  | .cntz t => cntzOut t a
  | .clz t => clzOut t a
  | .ctz t => ctzOut t a
  | .clo t => cloOut t a
  | .cto t => ctoOut t a
  | .rbit t => rbitOut t a
  | .bswap t => bswapOut t a
  | .tobe t => tobeOut p t a
  | .tole t => toleOut p t a

/-- CORE(CMD, A, B), defined for every input (R23); an illegal command gives Y = 0, OVF = 0, ILL = 1 (R27, R202). -/
def coreFn (p : Params) (cmd : CmdWord) (a b : Word) : Out :=
  match decode cmd with
  | .ok i => opOut p i a b
  | .error _ => illegalOut

end Sys2Proof.Machine
end

