-- ==== Sys2Proof/Machine/Forms.lean ====
section
/-! DEFINITION. The consumer layer, outside the core: the forms in which the source surfaces (Y, OVF) (spec 45_result_forms.md
R180 to R193; 90_conflicts.md C1). -/

namespace Sys2Proof.Machine

/-- The five surfacing forms and the escape hatch (R180; 90_conflicts.md C1). -/
inductive Form where
  | default
  | checked
  | overflowing
  | wrapping
  | saturating
  | unchecked
deriving DecidableEq, Repr

/-- What a form gives. -/
inductive FormResult where
  /-- a plain value: default, wrapping, saturating, unchecked -/
  | value (v : Int)
  /-- the pair of the overflowing form (R182) -/
  | pair (v : Int) (ovf : Bool)
  /-- checked: present with a value (R185) -/
  | present (v : Int)
  /-- checked: absent (R185) -/
  | absent
  /-- default: a hard failure, with a message whose text the spec leaves free (R184; log 11) -/
  | hardFailure (message : String)
deriving DecidableEq, Repr

/-- v = val(Y[W-1:0]) in the type of the command (45_result_forms.md, notation). -/
def outValue (t : Ty) (o : Out) : Int := val t (o.y.setWidth t.bits)

/-- The exact mathematical result n of add, sub and mul; none for an operation whose rule computes no integer to be held
against a range (R100, R103, R106). -/
def exactOf (i : Instr) (a b : Word) : Option Int :=
  match i with
  | .add t => some (exact (· + ·) t a b)
  | .sub t => some (exact (· - ·) t a b)
  | .mul t => some (exact (· * ·) t a b)
  | .shl _ | .shr _ | .rotl _ | .rotr _ | .cnto _ | .cntz _ | .clz _ | .ctz _ | .clo _ | .cto _ | .rbit _ | .bswap _
  | .tobe _ | .tole _ => none

/-- Whether an operation is one of the two shifts, which have no saturating form (R190). -/
def isShift : Instr → Bool
  | .shl _ | .shr _ => true
  | .add _ | .sub _ | .mul _ | .rotl _ | .rotr _ | .cnto _ | .cntz _ | .clz _ | .ctz _ | .clo _ | .cto _ | .rbit _
  | .bswap _ | .tobe _ | .tole _ => false

/-- MAX when the exact result is above it, MIN when it is below it, otherwise the value of the command (R186). -/
def saturate (t : Ty) (n : Int) (v : Int) : Int := if maxOf t < n then maxOf t else if n < minOf t then minOf t else v

/-- A form of the value v and the flag of one command of operation i (R182 to R185, R192). The saturating form takes its side
from the exact result where there is one (R186); a shift has none and is refused whatever its amount (R190; log 14); every
other operation cannot overflow, so its form is v (R191). -/
def surface (f : Form) (i : Instr) (n : Option Int) (v : Int) (ovf : Bool) : Host.Outcome FormResult Fault Refusal :=
  match f with
  | .default => .next (if ovf then .hardFailure (Config.hardFailureMessage i) else .value v)
  | .checked => .next (if ovf then .absent else .present v)
  | .overflowing => .next (.pair v ovf)
  | .wrapping => .next (.value v)
  | .unchecked => if ovf then .fault .uncheckedPrecondition else .next (.value v)
  | .saturating =>
    if isShift i then .refused .saturatingShift
    else
      match n with
      | some x => .next (.value (saturate i.ty x v))
      | none => .next (.value v)

/-- A form of an operation, computed from exactly one command (R181). -/
def formOf (f : Form) (p : Params) (i : Instr) (a b : Word) : Host.Outcome FormResult Fault Refusal :=
  surface f i (exactOf i a b) (outValue i.ty (opOut p i a b)) (opOut p i a b).ovf

/-- Which bound an overflow of add, sub or mul saturates to, told from the operands without the exact result (R187). -/
def saturationSide (i : Instr) (a b : Word) : Option Int :=
  match i with
  | .add t =>
    match t.sgn with
    | .unsigned => some (maxOf t)
    | .signed => some (if 0 ≤ sval (operandB t b) then maxOf t else minOf t)
  | .sub t =>
    match t.sgn with
    | .unsigned => some (minOf t)
    | .signed => some (if sval (operandB t b) < 0 then maxOf t else minOf t)
  | .mul t =>
    match t.sgn with
    | .unsigned => some (maxOf t)
    | .signed => some (if (operandA t a).msb ≠ (operandB t b).msb then minOf t else maxOf t)
  | .shl _ | .shr _ | .rotl _ | .rotr _ | .cnto _ | .cntz _ | .clz _ | .ctz _ | .clo _ | .cto _ | .rbit _ | .bswap _
  | .tobe _ | .tole _ => none

/-- Negation: the forms of `sub.T 0, x` (R188). -/
def negForm (f : Form) (p : Params) (t : Ty) (x : Word) : Host.Outcome FormResult Fault Refusal := formOf f p (.sub t) 0 x

/-- Absolute value of a signed x: x itself where it is not negative, else the negation (R189). -/
def absForm (f : Form) (p : Params) (w : Width) (x : Word) : Host.Outcome FormResult Fault Refusal :=
  let t : Ty := { sgn := .signed, width := w }
  let v := sval (operandA t x)
  if 0 ≤ v then surface f (.sub t) (some v) v false else negForm f p t x

/-- `unsigned_abs`: the pattern of x, or of `sub.uW 0, x` for a negative x, read as unsigned (R189). -/
def unsignedAbs (p : Params) (w : Width) (x : Word) : Int :=
  let t : Ty := { sgn := .unsigned, width := w }
  if 0 ≤ sval (operandA t x) then uval (operandA t x) else outValue t (opOut p (.sub t) 0 x)

/-- Compound assignment `x op= rhs`: one command on the held value, which is then replaced by the default form's result (R184,
R193). Four points are the model's choice and not the spec's: a hard failure ends the run as failed and leaves the held value
(log 15); the host bits take OVF and ILL, as after a command line, whether it succeeds or fails (log 22); it runs whatever
`status` is, also after `halt` or a hard failure, so that it may then overwrite the outcome (log 23); and every operation has
this form, also a unary one, whose `rhs` is then read and driven on a B that the operation ignores (log 25). That `x` is read
before `rhs` is the model's reading (log 10). -/
def compoundAssign (i : Instr) (x : Var) (rhs : Src) (s : State) : Host.Outcome State Fault Refusal :=
  match s.readVar x, s.readSrc rhs with
  | none, _ => .fault (.unwrittenVariable x)
  | some _, .error f => .fault f
  | some a, .ok b =>
    match present (encode i) a b s with
    | .next s' =>
      if s'.out.ovf then .next (s'.latchBits.finish (.failed (Config.hardFailureMessage i)))
      else .next ((s'.writeVar x s'.out.y).latchBits)
    | .fault f => .fault f
    | .refused r => .refused r

end Sys2Proof.Machine
end

