-- ==== Sys2Proof/Machine/Assembler.lean ====
section
/-! DEFINITION. The assembler: what a written command or line is, and the command word and the driven words it assembles to
(spec 30_encoding.md R70 to R77). Machine/Text.lean reads and prints the written text. -/

namespace Sys2Proof.Machine

/-- A mnemonic: of R61, or a pseudo-instruction of R76. -/
inductive Mnemonic where
  | add | sub | mul | shl | shr | rotl | rotr | cnto | cntz | clz | ctz | clo | cto | rbit | bswap | tobe | tole
  | neg | frombe | fromle | popcnt
deriving DecidableEq, Repr

/-- A type suffix (R71). -/
inductive TypeSuffix where
  | u8 | u16 | u32 | u64 | i8 | i16 | i32 | i64 | usize | isize
deriving DecidableEq, Repr

/-- A literal, decimal or hexadecimal (R72). -/
inductive Literal where
  | dec (n : Int)
  | hex (n : Nat)
deriving DecidableEq, Repr

/-- A written source operand (R72). -/
inductive Operand where
  | var (x : Var)
  | lit (l : Literal)
deriving DecidableEq, Repr

/-- A written command `<mnemonic>.<type> <dst>, <src1>[, <src2>]` (R70). -/
structure Command where
  mnemonic : Mnemonic
  suffix : TypeSuffix
  dst : Var
  src1 : Operand
  src2 : Option Operand
deriving DecidableEq, Repr

/-- A written line of a host program (R77). -/
inductive SourceLine where
  | command (c : Command)
  | setLit (dst : Var) (l : Literal)
  | ifOvf (want : Bool) (target : Nat)
  | ifIll (target : Nat)
  | ifEq (x : Var) (l : Literal) (target : Nat)
  | ifNe (x : Var) (l : Literal) (target : Nat)
  | goto (target : Nat)
  | halt
  | fail (message : String)
deriving DecidableEq, Repr

/-- Why the assembler refuses (R70, R72). -/
inductive AsmError where
  /-- a literal that R72 does not admit -/
  | literalOutOfRange (l : Literal)
  /-- more or fewer sources than the command takes (R70) -/
  | operandCount
deriving DecidableEq, Repr

/-- The type a suffix names; `usize` and `isize` have the width PTR_BITS (R71, R75). -/
def TypeSuffix.ty (p : Params) : TypeSuffix → Ty
  | .u8 => { sgn := .unsigned, width := .w8 }
  | .u16 => { sgn := .unsigned, width := .w16 }
  | .u32 => { sgn := .unsigned, width := .w32 }
  | .u64 => { sgn := .unsigned, width := .w64 }
  | .i8 => { sgn := .signed, width := .w8 }
  | .i16 => { sgn := .signed, width := .w16 }
  | .i32 => { sgn := .signed, width := .w32 }
  | .i64 => { sgn := .signed, width := .w64 }
  | .usize => { sgn := .unsigned, width := p.ptrBits }
  | .isize => { sgn := .signed, width := p.ptrBits }

/-- The instruction a mnemonic assembles to; a pseudo-instruction has that of its expansion (R61, R76). -/
def Mnemonic.instr : Mnemonic → Ty → Instr
  | .add => .add
  | .sub => .sub
  | .mul => .mul
  | .shl => .shl
  | .shr => .shr
  | .rotl => .rotl
  | .rotr => .rotr
  | .cnto => .cnto
  | .cntz => .cntz
  | .clz => .clz
  | .ctz => .ctz
  | .clo => .clo
  | .cto => .cto
  | .rbit => .rbit
  | .bswap => .bswap
  | .tobe => .tobe
  | .tole => .tole
  | .neg => .sub
  | .frombe => .tobe
  | .fromle => .tole
  | .popcnt => .cnto

/-- The number a literal stands for where it has no type: a shift amount, and the n of `y = n` and `if y == n` (log 12). -/
def Literal.plain : Literal → Int
  | .dec n => n
  | .hex n => n

/-- The number a literal stands for in a type: a hexadecimal literal of a signed type is the bit pattern, which must have no
more than W bits (R72; log 12). -/
def Literal.typed (t : Ty) : Literal → Option Int
  | .dec n => some n
  | .hex n =>
    match t.sgn with
    | .unsigned => some n
    | .signed => if n < 2 ^ t.bits then some (sval (BitVec.ofNat t.bits n)) else none

/-- A literal for A, or for B of a binary command: in range, and driven as zext_64(enc_W(n)) (R72). -/
def typedLiteral (t : Ty) (l : Literal) : Except AsmError Word :=
  match l.typed t with
  | some n => if inRange t n then .ok (place (enc t.bits n)) else .error (.literalOutOfRange l)
  | none => .error (.literalOutOfRange l)

/-- A literal for B of a shift command: 0 ≤ n < 2^32, driven as zext_64(enc_32(n)) (R72). -/
def amountLiteral (l : Literal) : Except AsmError Word :=
  if 0 ≤ l.plain ∧ l.plain < 2 ^ 32 then .ok (place (enc 32 l.plain)) else .error (.literalOutOfRange l)

/-- The word of `y = n` and of `if y == n`: zext_64(enc_64(n)) (R77). -/
def hostWord (l : Literal) : Word := place (enc 64 l.plain)

/-- An operand, with the reading of a literal that its place asks for. -/
def assembleOperand (lit : Literal → Except AsmError Word) : Operand → Except AsmError Src
  | .var x => .ok (.var x)
  | .lit l =>
    match lit l with
    | .ok w => .ok (.word w)
    | .error e => .error e

/-- The expansion of a pseudo-instruction; a command of R61 is its own (R76). -/
def Command.expand (c : Command) : Except AsmError Command :=
  match c.mnemonic with
  | .neg =>
    match c.src2 with
    | none => .ok { c with mnemonic := .sub, src1 := .lit (.dec 0), src2 := some c.src1 }
    | some _ => .error .operandCount
  | .frombe => .ok { c with mnemonic := .tobe }
  | .fromle => .ok { c with mnemonic := .tole }
  | .popcnt => .ok { c with mnemonic := .cnto }
  | .add | .sub | .mul | .shl | .shr | .rotl | .rotr | .cnto | .cntz | .clz | .ctz | .clo | .cto | .rbit | .bswap | .tobe
  | .tole => .ok c

/-- The instruction of a written command (R71, R75, R76). -/
def Command.instr (p : Params) (c : Command) : Instr := c.mnemonic.instr (c.suffix.ty p)

/-- The second source of a command of a class: none for unary, read as the type or as an amount for the others (R70, R72). -/
def assembleSecond (cls : OpClass) (t : Ty) (src2 : Option Operand) : Except AsmError (Option Src) :=
  match cls, src2 with
  | .unary, none => .ok none
  | .unary, some _ => .error .operandCount
  | .binary, none => .error .operandCount
  | .shift, none => .error .operandCount
  | .binary, some o => (assembleOperand (typedLiteral t) o).map some
  | .shift, some o => (assembleOperand amountLiteral o).map some

/-- A command of R61, assembled: CMD by R73, the sources by R72. -/
def assembleExpanded (p : Params) (c : Command) : Except AsmError Line :=
  match assembleOperand (typedLiteral (c.suffix.ty p)) c.src1,
    assembleSecond (c.instr p).opClass (c.suffix.ty p) c.src2 with
  | .ok a, .ok b => .ok (.command c.dst (encode (c.instr p)) a b)
  | .error e, _ => .error e
  | .ok _, .error e => .error e

/-- A written command, assembled (R70 to R76). -/
def assembleCommand (p : Params) (c : Command) : Except AsmError Line :=
  match c.expand with
  | .ok c' => assembleExpanded p c'
  | .error e => .error e

/-- A written line, assembled (R77). -/
def assembleLine (p : Params) : SourceLine → Except AsmError Line
  | .command c => assembleCommand p c
  | .setLit dst l => .ok (.setWord dst (hostWord l))
  | .ifOvf want target => .ok (.ifOvf want target)
  | .ifIll target => .ok (.ifIll target)
  | .ifEq x l target => .ok (.ifEq x (hostWord l) target)
  | .ifNe x l target => .ok (.ifNe x (hostWord l) target)
  | .goto target => .ok (.goto target)
  | .halt => .ok .halt
  | .fail message => .ok (.fail message)

/-- A written host program, assembled line by line. -/
def assemble (p : Params) : List SourceLine → Except AsmError (List Line)
  | [] => .ok []
  | l :: rest =>
    match assembleLine p l, assemble p rest with
    | .ok k, .ok ks => .ok (k :: ks)
    | .error e, _ => .error e
    | .ok _, .error e => .error e

/-- The mnemonic an instruction prints with (R61, R74). -/
def mnemonicOf : Instr → Mnemonic
  | .add _ => .add
  | .sub _ => .sub
  | .mul _ => .mul
  | .shl _ => .shl
  | .shr _ => .shr
  | .rotl _ => .rotl
  | .rotr _ => .rotr
  | .cnto _ => .cnto
  | .cntz _ => .cntz
  | .clz _ => .clz
  | .ctz _ => .ctz
  | .clo _ => .clo
  | .cto _ => .cto
  | .rbit _ => .rbit
  | .bswap _ => .bswap
  | .tobe _ => .tobe
  | .tole _ => .tole

/-- The suffix a type prints with; `usize` and `isize` are never printed (R74). -/
def suffixOf (t : Ty) : TypeSuffix :=
  match t.sgn, t.width with
  | .unsigned, .w8 => .u8
  | .unsigned, .w16 => .u16
  | .unsigned, .w32 => .u32
  | .unsigned, .w64 => .u64
  | .signed, .w8 => .i8
  | .signed, .w16 => .i16
  | .signed, .w32 => .i32
  | .signed, .w64 => .i64

end Sys2Proof.Machine
end

