-- ==== Sys2Proof/Machine/Text.lean ====
section
/-! DEFINITION. The written form of commands and host lines, read and printed (spec 30_encoding.md R70, R71, R72, R74, R76,
R77; log 9, log 20). -/

namespace Sys2Proof.Machine

/-- The name of a mnemonic (R61, R76). -/
def Mnemonic.text : Mnemonic → String
  | .add => "add"
  | .sub => "sub"
  | .mul => "mul"
  | .shl => "shl"
  | .shr => "shr"
  | .rotl => "rotl"
  | .rotr => "rotr"
  | .cnto => "cnto"
  | .cntz => "cntz"
  | .clz => "clz"
  | .ctz => "ctz"
  | .clo => "clo"
  | .cto => "cto"
  | .rbit => "rbit"
  | .bswap => "bswap"
  | .tobe => "tobe"
  | .tole => "tole"
  | .neg => "neg"
  | .frombe => "frombe"
  | .fromle => "fromle"
  | .popcnt => "popcnt"

/-- The mnemonics of R61 and R76. -/
def allMnemonics : List Mnemonic :=
  [.add, .sub, .mul, .shl, .shr, .rotl, .rotr, .cnto, .cntz, .clz, .ctz, .clo, .cto, .rbit, .bswap, .tobe, .tole, .neg,
    .frombe, .fromle, .popcnt]

/-- The name of a type suffix (R71). -/
def TypeSuffix.text : TypeSuffix → String
  | .u8 => "u8"
  | .u16 => "u16"
  | .u32 => "u32"
  | .u64 => "u64"
  | .i8 => "i8"
  | .i16 => "i16"
  | .i32 => "i32"
  | .i64 => "i64"
  | .usize => "usize"
  | .isize => "isize"

/-- The suffixes of R71. -/
def allSuffixes : List TypeSuffix := [.u8, .u16, .u32, .u64, .i8, .i16, .i32, .i64, .usize, .isize]

/-- A digit of a hexadecimal number, capital. -/
def hexDigit (d : BitVec 4) : Char :=
  if d.toNat < 10 then Char.ofNat (48 + d.toNat) else Char.ofNat (55 + d.toNat)

/-- A command word as four hexadecimal digits. -/
def hexText (cmd : CmdWord) : String :=
  String.ofList [hexDigit (cmd.extractLsb' 12 4), hexDigit (cmd.extractLsb' 8 4), hexDigit (cmd.extractLsb' 4 4),
    hexDigit (cmd.extractLsb' 0 4)]

/-- `<mnemonic>.<type>` (R70, R74). -/
def operationText (m : Mnemonic) (ty : TypeSuffix) : String := m.text ++ "." ++ ty.text

/-- Disassembly: a legal word prints as `<mnemonic>.<type>`, an illegal one as `.word 0x<CMD>` (R74). -/
def disassemble (cmd : CmdWord) : String :=
  match decode cmd with
  | .ok i => operationText (mnemonicOf i) (suffixOf i.ty)
  | .error _ => ".word 0x" ++ hexText cmd

/-- The characters before the first point, and those after it. -/
def splitPoint : List Char → Option (List Char × List Char)
  | [] => none
  | c :: rest =>
    if c = '.' then some ([], rest)
    else
      match splitPoint rest with
      | some (before, after) => some (c :: before, after)
      | none => none

/-- `<mnemonic>.<type>`, read (R70, R71, R76). -/
def readOperation (s : String) : Option (Mnemonic × TypeSuffix) :=
  match splitPoint s.toList with
  | some (m, ty) =>
    match allMnemonics.find? fun k => k.text == String.ofList m, allSuffixes.find? fun k => k.text == String.ofList ty with
    | some mn, some sx => some (mn, sx)
    | _, _ => none
  | none => none

/-- The words of a line, cut at blanks; a comma is a word of its own (log 20). -/
def wordsOf : List Char → List Char → List String
  | [], acc => if acc = [] then [] else [String.ofList acc]
  | c :: rest, acc =>
    if c = ' ' then (if acc = [] then [] else [String.ofList acc]) ++ wordsOf rest []
    else if c = ',' then (if acc = [] then [] else [String.ofList acc]) ++ "," :: wordsOf rest []
    else wordsOf rest (acc ++ [c])

/-- The value of a digit. -/
def digitOf (c : Char) : Option Nat :=
  if '0' ≤ c ∧ c ≤ '9' then some (c.toNat - 48)
  else if 'A' ≤ c ∧ c ≤ 'F' then some (c.toNat - 55)
  else if 'a' ≤ c ∧ c ≤ 'f' then some (c.toNat - 87)
  else none

/-- Digits of a base after a number already read. -/
def digitsFrom (base : Nat) : Nat → List Char → Option Nat
  | n, [] => some n
  | n, c :: rest =>
    match digitOf c with
    | some d => if d < base then digitsFrom base (n * base + d) rest else none
    | none => none

/-- One digit or more of a base. -/
def readNumber (base : Nat) (cs : List Char) : Option Nat := if cs = [] then none else digitsFrom base 0 cs

/-- A literal: `0x` and hexadecimal digits, or decimal digits with a minus sign where it is negative (R72; log 12). -/
def readLiteral (s : String) : Option Literal :=
  match s.toList with
  | '0' :: 'x' :: ds => (readNumber 16 ds).map .hex
  | '-' :: ds => (readNumber 10 ds).map fun n => .dec (-(n : Int))
  | ds => (readNumber 10 ds).map fun n => .dec n

/-- Whether a text can name a host variable: a letter or an underscore, then letters, digits and underscores (log 20). -/
def isName : List Char → Bool
  | [] => false
  | c :: rest => (c.isAlpha || c == '_') && rest.all fun d => d.isAlphanum || d == '_'

/-- The number a host variable's name is held under: its characters as the digits of a number, so that different names have
different numbers (log 9). -/
def varNumber (s : String) : Var := s.toList.foldl (fun n c => n * 0x110000 + c.toNat) 0

/-- A host variable, read. -/
def readVarName (s : String) : Option Var := if isName s.toList then some (varNumber s) else none

/-- A source operand, read (R72). -/
def readOperand (s : String) : Option Operand :=
  match readLiteral s with
  | some l => some (.lit l)
  | none => (readVarName s).map .var

/-- A line number, read (R77). -/
def readTarget (s : String) : Option Nat := readNumber 10 s.toList

/-- A command from the words that name its operation, destination and sources. -/
def readParts (dst op a : String) (b : Option String) : Option Command :=
  match readVarName dst, readOperation op, readOperand a, b with
  | some y, some (m, ty), some x, none => some { mnemonic := m, suffix := ty, dst := y, src1 := x, src2 := none }
  | some y, some (m, ty), some x, some t =>
    match readOperand t with
    | some z => some { mnemonic := m, suffix := ty, dst := y, src1 := x, src2 := some z }
    | none => none
  | _, _, _, _ => none

/-- A command `<mnemonic>.<type> <dst>, <src1>[, <src2>]`, read (R70). -/
def readCommand (s : String) : Option Command :=
  match wordsOf s.toList [] with
  | [op, dst, ",", a] => readParts dst op a none
  | [op, dst, ",", a, ",", b] => readParts dst op a (some b)
  | _ => none

/-- The double quotation mark around a message. -/
def quoteMark : Char := Char.ofNat 34

/-- The message of a `fail` line, read: what stands between the first quotation mark and the last (R77). -/
def readFail (cs : List Char) : Option String :=
  match cs with
  | 'f' :: 'a' :: 'i' :: 'l' :: ' ' :: q :: rest =>
    if q = quoteMark ∧ rest.getLast? = some quoteMark then some (String.ofList rest.dropLast) else none
  | _ => none

/-- A line of a host program, read (R77). -/
def readLine (s : String) : Option SourceLine :=
  match readFail s.toList with
  | some message => some (.fail message)
  | none =>
    match wordsOf s.toList [] with
    | ["halt"] => some .halt
    | ["goto", m] => (readTarget m).map .goto
    | ["if", "ovf", "goto", m] => (readTarget m).map (.ifOvf true)
    | ["if", "!ovf", "goto", m] => (readTarget m).map (.ifOvf false)
    | ["if", "ill", "goto", m] => (readTarget m).map .ifIll
    | ["if", y, "==", n, "goto", m] =>
      match readVarName y, readLiteral n, readTarget m with
      | some x, some l, some k => some (.ifEq x l k)
      | _, _, _ => none
    | ["if", y, "!=", n, "goto", m] =>
      match readVarName y, readLiteral n, readTarget m with
      | some x, some l, some k => some (.ifNe x l k)
      | _, _, _ => none
    | [y, "=", n] =>
      match readVarName y, readLiteral n with
      | some x, some l => some (.setLit x l)
      | _, _ => none
    | [y, "=", op, a] => (readParts y op a none).map .command
    | [y, "=", op, a, ",", b] => (readParts y op a (some b)).map .command
    | _ => none

end Sys2Proof.Machine
end

