-- ==== Sys2Proof/WellFormed.lean ====
section
/-! DEFINITION. When a host program is well formed: every command word is legal, a command names as many sources as its class
reads, every branch target is a line of the program, and the last line does not run past the end (spec 30_encoding.md R62,
R65, R70, R77). An instruction itself needs no check: every signedness and every width is legal with every operation (R63,
R64), so every term of Instr is well formed. -/

namespace Sys2Proof.Machine

/-- The command word is legal and the sources are those its class reads (R62, R65, R70). -/
def commandWf (cmd : CmdWord) (srcB : Option Src) : Bool :=
  match decode cmd with
  | .ok i => srcB.isSome == decide (i.opClass ≠ .unary)
  | .error _ => false

/-- A branch target is a line of a program of `n` lines (R77: "Branch targets are line numbers"). -/
def targetWf (n target : Nat) : Bool := decide (target < n)

/-- Line `k` of `n`, where control goes on to line k+1, is not the last (R77: "A line index outside the program is a fault"). -/
def goesOnWf (n k : Nat) : Bool := decide (k + 1 < n)

/-- The checks on line `k` of a program of `n` lines. -/
def Line.wf (n k : Nat) : Line → Bool
  | .command _ cmd _ srcB => commandWf cmd srcB && goesOnWf n k
  | .setWord _ _ => goesOnWf n k
  | .ifOvf _ target => targetWf n target && goesOnWf n k
  | .ifIll target => targetWf n target && goesOnWf n k
  | .ifEq _ _ target => targetWf n target && goesOnWf n k
  | .ifNe _ _ target => targetWf n target && goesOnWf n k
  | .goto target => targetWf n target
  | .halt => true
  | .fail _ => true

/-- The checks on the lines from line `k` on. -/
def linesWf (n : Nat) : Nat → List Line → Bool
  | _, [] => true
  | k, l :: rest => l.wf n k && linesWf n (k + 1) rest

/-- A program is well formed. -/
def programWf (prog : List Line) : Bool := linesWf prog.length 0 prog

end Sys2Proof.Machine
end

