-- ==== Sys2Proof/Safety.lean ====
section
/-! DEFINITION. What claims about runs are stated in: the invariant every step keeps, and when a state's program can only stop
where the spec lets it. -/

namespace Sys2Proof.Machine

/-- The outputs are CORE of the inputs now applied (R31). -/
abbrev State.OutputsMatch (s : State) : Prop := s.out = coreFn s.params s.portCmd s.portA s.portB

/-- The invariant of the machine: the host variables are in canonical form, the outputs are CORE of the inputs (R31), and
neither ILL nor the host bit that takes it is 1, since ILL = 1 is a fault of the requester's step (R201). -/
structure State.Inv (s : State) : Prop where
  vars_wf : varsWf s.vars = true
  outputs : s.OutputsMatch
  ill : s.out.ill = false
  hostIll : s.hostIll = false

/-- A well-formed program with its line index on one of its lines. -/
structure State.ProgramOk (s : State) : Prop where
  prog_wf : programWf s.prog = true
  line_lt : s.line < s.prog.length

/-- The ways a well-formed program can stop with a fault: it reads a variable nothing has written, or the run has ended (R77). -/
def Fault.allowed : Fault → Bool
  | .unwrittenVariable _ => true
  | .runEnded => true
  | .illegalCommand _ => false
  | .lineOutside _ => false
  | .uncheckedPrecondition => false

end Sys2Proof.Machine
end

