-- ==== Sys2Proof/Certificates/Slice0/Obligations.lean ====
section
/-! DEFINITION. The statements for the provers. Each docstring names the rule it formalises. -/

open Sys2Proof Sys2Proof.Machine

/-- The SGN and WSEL part of a command word as a number, from the tables of R63, R64 and R71. -/
def Sys2Proof.Claims.typeField (t : Ty) : Nat :=
  (match t.sgn with
    | .unsigned => 0
    | .signed => 128) +
  (match t.width with
    | .w8 => 0
    | .w16 => 32
    | .w32 => 64
    | .w64 => 96)

/-- `op`, an OP value, encodes an instruction at every type: CMD = (SGN << 7) | (WSEL << 5) | OP (R61, R73). -/
def Sys2Proof.Claims.Encodes (op : Nat) (i : Ty → Instr) : Prop :=
  ∀ t, decode (BitVec.ofNat 16 (Claims.typeField t + op)) = .ok (i t)

/-- The unsigned type of a width. -/
abbrev Sys2Proof.Claims.u (w : Width) : Ty := { sgn := .unsigned, width := w }

/-- The signed type of a width. -/
abbrev Sys2Proof.Claims.i (w : Width) : Ty := { sgn := .signed, width := w }

/-- `src` is what a written operand assembles to when its place reads a literal with `lit`: a host variable is itself, a
literal is the word it is driven as (R72). -/
def Sys2Proof.Claims.ReadsAs (lit : Literal → Except AsmError Word) (o : Operand) (src : Src) : Prop :=
  match o with
  | .var x => src = .var x
  | .lit l => ∃ w, lit l = .ok w ∧ src = .word w

/-! ### Patterns and values -/

/-- R7: uval is Σ p[i]·2^i, sval is uval less 2^W·p[W-1], and the value in a type is the one of its signedness. -/
def Obligations.ValuesOfPatterns : Prop :=
  (∀ (n : Nat) (p : BitVec n), uval p = ∑ i ∈ Finset.range n, ((p.getLsbD i).toNat : Int) * 2 ^ i) ∧
  (∀ (n : Nat) (p : BitVec n), 0 < n → sval p = uval p - 2 ^ n * ((p.getLsbD (n - 1)).toNat : Int)) ∧
  (∀ (w : Width) (p : Pattern w), val (Claims.u w) p = uval p ∧ val (Claims.i w) p = sval p)

/-- R8: enc_W(n) is the one pattern whose unsigned value is n mod 2^W; derived in the spec from R4 and R7: an n in range is
the value of its pattern. -/
def Obligations.EncIsTheUniqueResidue : Prop :=
  (∀ (n : Nat) (x : Int) (p : BitVec n), p = enc n x ↔ uval p = x % 2 ^ n) ∧
  (∀ (t : Ty) (x : Int), minOf t ≤ x → x ≤ maxOf t → val t (enc t.bits x) = x)

/-- R4, R9, with R7: MIN, MAX and BITS of each type, and being in range is lying between them; derived, and said by no rule:
the integers in range are exactly the values of the patterns. -/
def Obligations.RangeOfAType : Prop :=
  (∀ w : Width, minOf (Claims.u w) = 0 ∧ maxOf (Claims.u w) = 2 ^ w.bits - 1 ∧
    minOf (Claims.i w) = -2 ^ (w.bits - 1) ∧ maxOf (Claims.i w) = 2 ^ (w.bits - 1) - 1 ∧
    (Claims.u w).bits = w.bits ∧ (Claims.i w).bits = w.bits) ∧
  (∀ (t : Ty) (x : Int), inRange t x = true ↔ minOf t ≤ x ∧ x ≤ maxOf t) ∧
  (∀ (t : Ty) (x : Int), inRange t x = true ↔ ∃ p : Pattern t.width, val t p = x)

/-! ### Command words -/

/-- R60, R61, R63, R64, R68, R73: a word decodes to an instruction exactly when it is that instruction's encoding. -/
def Obligations.DecodeIsTheInverseOfEncode : Prop :=
  ∀ (cmd : CmdWord) (i : Instr), decode cmd = .ok i ↔ encode i = cmd

/-- R65: the illegal words are those with RSV ≠ 0 or a reserved OP; they give ILL = 1, Y = 0 and OVF = 0, every other word
gives ILL = 0; derived in the spec from R61, R63 and R64: 136 words are legal and 65400 are not. -/
def Obligations.IllegalExactlyReservedWords : Prop :=
  (∀ cmd : CmdWord, legal cmd = false ↔
    cmd.toNat / 256 ≠ 0 ∨ cmd.toNat % 32 ∈ [0x07, 0x0E, 0x0F] ∨ 0x14 ≤ cmd.toNat % 32) ∧
  (∀ p cmd a b, legal cmd = false → coreFn p cmd a b = { y := 0, ovf := false, ill := true }) ∧
  (∀ p cmd a b, legal cmd = true → (coreFn p cmd a b).ill = false) ∧
  ((List.range 65536).filter fun n => legal (BitVec.ofNat 16 n)).length = 136 ∧
  ((List.range 65536).filter fun n => !legal (BitVec.ofNat 16 n)).length = 65400

/-- Sanity: words of 95_test_vectors.md §2.5, written out, decode to the commands they stand for. -/
def Obligations.WrittenWordsDecode : Prop :=
  decode 0b0000000000000000 = .ok (.add (Claims.u .w8)) ∧
  decode 0b0000000011100000 = .ok (.add (Claims.i .w64)) ∧
  decode 0b0000000000100010 = .ok (.mul (Claims.u .w16)) ∧
  decode 0b0000000010100100 = .ok (.shr (Claims.i .w16)) ∧
  decode 0b0000000001101001 = .ok (.cntz (Claims.u .w64)) ∧
  decode 0b0000000001110011 = .ok (.tole (Claims.u .w64)) ∧
  decode 0b0000000000000111 = .error .reservedOp ∧
  decode 0b0000000100000000 = .error .reservedField

/-! ### The core as a function, and the machine that presents commands to it -/

/-- R23 and R200: every presented command, legal or illegal, completes with the outputs CORE(CMD, A, B) and changes nothing
but the ports; equal inputs on one core give equal outputs whatever came before; PTR_BITS changes no output. -/
def Obligations.EveryPresentedCommandCompletes : Prop :=
  (∀ (s : State) (cmd : CmdWord) (a b : Word),
    present cmd a b s = .next
      { s with portCmd := cmd, portA := a, portB := b, out := coreFn s.params cmd a b }) ∧
  (∀ (s s' t t' : State) (cmd : CmdWord) (a b : Word), s.params = s'.params →
    present cmd a b s = .next t → present cmd a b s' = .next t' → t.out = t'.out) ∧
  (∀ (p q : Params) (cmd : CmdWord) (a b : Word), p.nativeEndian = q.nativeEndian → coreFn p cmd a b = coreFn q cmd a b)

/-- R6: NATIVE_ENDIAN changes only the results of tobe and tole. -/
def Obligations.NativeOrderChangesOnlyEndianConversions : Prop :=
  ∀ (p q : Params) (cmd : CmdWord) (a b : Word), cmd.toNat % 32 ≠ 0x12 → cmd.toNat % 32 ≠ 0x13 →
    coreFn p cmd a b = coreFn q cmd a b

/-- R20, R25, and the frame of every instruction: at every state every instruction completes; it changes no part of the state
but the outputs; its Y is the zero extension of a W-bit pattern, ILL is 0, and a count is at most W. -/
def Obligations.EveryInstructionCompletesAndOnlyDrivesOutputs : Prop :=
  ∀ (i : Instr) (s : State), ∃ (r : Pattern i.ty.width) (ovf : Bool),
    exec i s = .next { s with out := { y := r.setWidth 64, ovf := ovf, ill := false } } ∧
    (∀ k, i.ty.bits ≤ k → (r.setWidth 64 : Word).getLsbD k = false) ∧
    (i ∈ [.cnto i.ty, .cntz i.ty, .clz i.ty, .ctz i.ty, .clo i.ty, .cto i.ty] → r.toNat ≤ i.ty.bits)

/-- R24, R62: A[63:W] is ignored by every operation, B[63:W] by the binary ones, B[63:32] by the shift ones and B by the unary
ones: two presentations that agree on the bits read give the same outputs. -/
def Obligations.UnreadOperandBitsAreIgnored : Prop :=
  ∀ (p : Params) (i : Instr) (a a' b b' : Word), (∀ k, k < i.ty.bits → a.getLsbD k = a'.getLsbD k) →
    (i.opClass = .binary → ∀ k, k < i.ty.bits → b.getLsbD k = b'.getLsbD k) →
    (i.opClass = .shift → ∀ k, k < 32 → b.getLsbD k = b'.getLsbD k) →
    coreFn p (encode i) a b = coreFn p (encode i) a' b'

/-- R26: OVF is 1 exactly for add, sub and mul whose exact result is out of range and for shl and shr with amt ≥ W, so 0 for
every other and for an illegal command; it is not accumulated: no command reads what an earlier one left on the outputs. -/
def Obligations.OvfExactlyWhenTheOperationOverflows : Prop :=
  (∀ (s : State) (o : Out) (cmd : CmdWord) (a b : Word), present cmd a b { s with out := o } = present cmd a b s) ∧
  ∀ (p : Params) (cmd : CmdWord) (a b : Word), (coreFn p cmd a b).ovf = true ↔
    ∃ t, let x := val t (a.setWidth t.bits)
         let y := val t (b.setWidth t.bits)
      (decode cmd = .ok (.add t) ∧ ¬(minOf t ≤ x + y ∧ x + y ≤ maxOf t)) ∨
      (decode cmd = .ok (.sub t) ∧ ¬(minOf t ≤ x - y ∧ x - y ≤ maxOf t)) ∨
      (decode cmd = .ok (.mul t) ∧ ¬(minOf t ≤ x * y ∧ x * y ≤ maxOf t)) ∨
      (decode cmd = .ok (.shl t) ∧ t.bits ≤ b.toNat % 2 ^ 32) ∨
      (decode cmd = .ok (.shr t) ∧ t.bits ≤ b.toNat % 2 ^ 32)

/-- R27, R202: ILL is 1 exactly for an illegal word; then Y = 0 and OVF = 0 whatever A and B are; otherwise the outputs are
those of the operation; so ILL and OVF are never both 1. -/
def Obligations.IllegalTakesPrecedence : Prop :=
  (∀ p cmd a b, (coreFn p cmd a b).ill = true ↔ legal cmd = false) ∧
  (∀ p cmd a b, (coreFn p cmd a b).ill = true → (coreFn p cmd a b).y = 0 ∧ (coreFn p cmd a b).ovf = false) ∧
  (∀ p cmd a b, (coreFn p cmd a b).ill = false → ∃ i, decode cmd = .ok i ∧ coreFn p cmd a b = opOut p i a b) ∧
  (∀ p cmd a b, ¬((coreFn p cmd a b).ill = true ∧ (coreFn p cmd a b).ovf = true))

/-- R64, R146, R165, whose sentences on the unaffected operations the spec derives from their rules: SGN = 1 is signed and 0
is unsigned; both SGN values are legal with the same words; flipping SGN (bit 7) changes no output but those of add, sub, mul
and shr, and not the Y of add, sub and mul (R108). -/
def Obligations.SignednessChangesOnlyArithmeticAndShr : Prop :=
  (∀ (cmd : CmdWord) (i : Instr), decode cmd = .ok i → (i.ty.sgn = .signed ↔ cmd.toNat / 128 % 2 = 1)) ∧
  (∀ cmd : CmdWord, legal (cmd ^^^ 0x80#16) = legal cmd) ∧
  (∀ (p : Params) (cmd : CmdWord) (a b : Word), cmd.toNat % 32 ∉ [0x00, 0x01, 0x02, 0x04] →
    coreFn p (cmd ^^^ 0x80#16) a b = coreFn p cmd a b) ∧
  (∀ (p : Params) (cmd : CmdWord) (a b : Word), cmd.toNat % 32 ∈ [0x00, 0x01, 0x02] →
    (coreFn p (cmd ^^^ 0x80#16) a b).y = (coreFn p cmd a b).y)

/-- R50, and R51, which the spec derives from R50 and R20: over `serve`, the model's choice of how other requesters' commands
come to the core (log 17): presented one after another, by any number of requesters, each command gives the outputs it gives
alone; so no order and no interleaving of other requesters' commands changes what a requester reads. -/
def Obligations.CommandsOfRequestersAreIndependent : Prop :=
  (∀ (s : State) (rs : List Request), serve rs s = rs.map fun r => (r.requester, coreFn s.params r.cmd r.a r.b)) ∧
  (∀ (s s' : State) (rs rs' : List Request) (n : Nat), s.params = s'.params →
    rs.filter (fun r => r.requester == n) = rs'.filter (fun r => r.requester == n) →
    (serve rs s).filter (fun o => o.1 == n) = (serve rs' s').filter (fun o => o.1 == n)) ∧
  (∀ (s : State) (rs rs' : List Request), rs.Perm rs' → (serve rs s).Perm (serve rs' s))

/-! ### Arithmetic -/

/-- R100: `add`: OP 0x00; the exact sum, wrapped, with OVF when it is out of range. Nothing but the outputs changes. -/
def Obligations.AddGivesWrappedSum : Prop :=
  Claims.Encodes 0x00 .add ∧
  ∀ (t : Ty) (s : State), let n := val t (s.portA.setWidth t.bits) + val t (s.portB.setWidth t.bits)
    exec (.add t) s = .next { s with out :=
      { y := (enc t.bits n).setWidth 64, ovf := !(decide (minOf t ≤ n) && decide (n ≤ maxOf t)), ill := false } }

/-- R103: `sub`: OP 0x01; the exact difference, wrapped, with OVF when it is out of range. Nothing but the outputs changes. -/
def Obligations.SubGivesWrappedDifference : Prop :=
  Claims.Encodes 0x01 .sub ∧
  ∀ (t : Ty) (s : State), let n := val t (s.portA.setWidth t.bits) - val t (s.portB.setWidth t.bits)
    exec (.sub t) s = .next { s with out :=
      { y := (enc t.bits n).setWidth 64, ovf := !(decide (minOf t ≤ n) && decide (n ≤ maxOf t)), ill := false } }

/-- R106: `mul`: OP 0x02; the exact product, wrapped, with OVF when it is out of range. Nothing but the outputs changes. -/
def Obligations.MulGivesWrappedProduct : Prop :=
  Claims.Encodes 0x02 .mul ∧
  ∀ (t : Ty) (s : State), let n := val t (s.portA.setWidth t.bits) * val t (s.portB.setWidth t.bits)
    exec (.mul t) s = .next { s with out :=
      { y := (enc t.bits n).setWidth 64, ovf := !(decide (minOf t ≤ n) && decide (n ≤ maxOf t)), ill := false } }

/-- R101, which the spec derives from R100: the bit-level form of add: the same pattern for both signednesses; OVF is the
carry out for unsigned, and for signed equal operand signs with another result sign. -/
def Obligations.AddOverflowAtBitLevel : Prop :=
  ∀ (w : Width) (s : State),
    let a : Pattern w := s.portA.setWidth w.bits
    let b : Pattern w := s.portB.setWidth w.bits
    let r : Pattern w := a + b
    exec (.add (Claims.u w)) s = .next { s with out :=
      { y := r.setWidth 64, ovf := decide (2 ^ w.bits ≤ a.toNat + b.toNat), ill := false } } ∧
    exec (.add (Claims.i w)) s = .next { s with out :=
      { y := r.setWidth 64, ovf := (a.msb == b.msb) && (r.msb != a.msb), ill := false } }

/-- R104, which the spec derives from R103: the bit-level form of sub: the same pattern for both signednesses; OVF is the
borrow for unsigned, and for signed different operand signs with a result sign other than that of a. -/
def Obligations.SubOverflowAtBitLevel : Prop :=
  ∀ (w : Width) (s : State),
    let a : Pattern w := s.portA.setWidth w.bits
    let b : Pattern w := s.portB.setWidth w.bits
    let r : Pattern w := a - b
    exec (.sub (Claims.u w)) s = .next { s with out :=
      { y := r.setWidth 64, ovf := decide (a.toNat < b.toNat), ill := false } } ∧
    exec (.sub (Claims.i w)) s = .next { s with out :=
      { y := r.setWidth 64, ovf := (a.msb != b.msb) && (r.msb != a.msb), ill := false } }

/-- R107, which the spec derives from R106: the bit-level form of mul: the low W bits of the unsigned product for both
signednesses; OVF for unsigned when the product is 2^W or more, that is when the high W bits of the 2W-bit product are not all
zero, and for signed when the product P is not sval(enc(P)), that is when the high W+1 bits of the 2W-bit two's-complement
product are not all equal. -/
def Obligations.MulOverflowAtBitLevel : Prop :=
  ∀ (w : Width) (s : State),
    let a : Pattern w := s.portA.setWidth w.bits
    let b : Pattern w := s.portB.setWidth w.bits
    let r : Pattern w := a * b
    let pu : BitVec (2 * w.bits) := a.zeroExtend (2 * w.bits) * b.zeroExtend (2 * w.bits)
    let ps : BitVec (2 * w.bits) := a.signExtend (2 * w.bits) * b.signExtend (2 * w.bits)
    exec (.mul (Claims.u w)) s = .next { s with out :=
      { y := r.setWidth 64, ovf := decide (2 ^ w.bits ≤ a.toNat * b.toNat), ill := false } } ∧
    (2 ^ w.bits ≤ a.toNat * b.toNat ↔ pu.extractLsb' w.bits w.bits ≠ 0) ∧
    exec (.mul (Claims.i w)) s = .next { s with out :=
      { y := r.setWidth 64, ovf := decide (a.toInt * b.toInt ≠ r.toInt), ill := false } } ∧
    (a.toInt * b.toInt ≠ r.toInt ↔ ¬∀ k, k < w.bits + 1 → ps.getLsbD (w.bits - 1 + k) = ps.getLsbD (w.bits - 1))

/-- R102 and R105, which the spec derives from R100 and R103, and the same for mul: for add, sub and mul OVF = 0 exactly when
the mathematical result is in [MIN, MAX], and then the value of Y is that result; in every case the value is the one in the
range that is equal to it modulo 2^W. -/
def Obligations.ArithmeticLaws : Prop :=
  ∀ (p : Params) (t : Ty) (a b : Word),
    let x := val t (a.setWidth t.bits)
    let y := val t (b.setWidth t.bits)
    ∀ (i : Instr) (n : Int), (i, n) = (Instr.add t, x + y) ∨ (i, n) = (Instr.sub t, x - y) ∨ (i, n) = (Instr.mul t, x * y) →
      let o := coreFn p (encode i) a b
      let v := val t (o.y.setWidth t.bits)
      (o.ovf = false ↔ minOf t ≤ n ∧ n ≤ maxOf t) ∧ (o.ovf = false → v = n) ∧
      (minOf t ≤ v ∧ v ≤ maxOf t ∧ (v - n) % 2 ^ t.bits = 0)

/-! ### Shifts and rotations -/

/-- R120, R121, with R122, its bit-level form that the spec derives: `shl`: OP 0x03; r = enc(uval(a)·2^s) for s = amt mod W,
that is r[i] = a[i-s] from s up and 0 below, for both signednesses; OVF = 1 exactly when amt ≥ W. Nothing but the outputs
changes. -/
def Obligations.ShlShiftsByTheMaskedAmount : Prop :=
  Claims.Encodes 0x03 .shl ∧
  ∀ (t : Ty) (s : State),
    let a : Pattern t.width := s.portA.setWidth t.bits
    let amt := s.portB.toNat % 2 ^ 32
    ∃ r : Pattern t.width,
      exec (.shl t) s = .next { s with out := { y := r.setWidth 64, ovf := decide (t.bits ≤ amt), ill := false } } ∧
      uval r = uval a * 2 ^ (amt % t.bits) % 2 ^ t.bits ∧
      (∀ i, i < t.bits → r.getLsbD i = if i < amt % t.bits then false else a.getLsbD (i - amt % t.bits))

/-- R120, R123, with R124, its bit-level form that the spec derives: `shr`: OP 0x04; the value of a divided by 2^s, rounded
down, for s = amt mod W, that is zeros enter for unsigned and copies of a[W-1] for signed; OVF = 1 exactly when amt ≥ W.
Nothing but the outputs changes. -/
def Obligations.ShrShiftsByTheMaskedAmount : Prop :=
  Claims.Encodes 0x04 .shr ∧
  ∀ (t : Ty) (s : State),
    let a : Pattern t.width := s.portA.setWidth t.bits
    let amt := s.portB.toNat % 2 ^ 32
    ∃ r : Pattern t.width,
      exec (.shr t) s = .next { s with out := { y := r.setWidth 64, ovf := decide (t.bits ≤ amt), ill := false } } ∧
      val t r = val t a / 2 ^ (amt % t.bits) ∧
      (∀ i, i < t.bits → r.getLsbD i =
        if i < t.bits - amt % t.bits then a.getLsbD (i + amt % t.bits)
        else decide (t.sgn = .signed) && a.getLsbD (t.bits - 1))

/-- R125, R126: `rotl` (OP 0x05) and `rotr` (OP 0x06): a rotated by amt mod W, r[i] = a[(i ∓ s) mod W], OVF = 0 for every
amount. Nothing but the outputs changes. -/
def Obligations.RotationsMoveEveryBit : Prop :=
  Claims.Encodes 0x05 .rotl ∧ Claims.Encodes 0x06 .rotr ∧
  ∀ (t : Ty) (s : State),
    let a : Pattern t.width := s.portA.setWidth t.bits
    let amt := s.portB.toNat % 2 ^ 32
    exec (.rotl t) s = .next { s with out := { y := (a.rotateLeft amt).setWidth 64, ovf := false, ill := false } } ∧
    exec (.rotr t) s = .next { s with out := { y := (a.rotateRight amt).setWidth 64, ovf := false, ill := false } } ∧
    (∀ i, i < t.bits →
      ((a.rotateLeft amt).getLsbD i : Bool) = a.getLsbD (((i : Int) - (amt % t.bits : Nat)) % t.bits).toNat ∧
      ((a.rotateRight amt).getLsbD i : Bool) = a.getLsbD ((i + amt % t.bits) % t.bits))

/-- R127, which the spec derives from R125 and R126: the rotation laws: rotl by s is rotr by W - s; rotr undoes rotl; the
population count is kept; and a rotation by s ≠ 0 is the or of the two shifts. -/
def Obligations.RotationLaws : Prop :=
  ∀ (w : Width) (a : Pattern w) (amt : Nat), let s := amt % w.bits
    rotlValue w a s = rotrValue w a ((w.bits - s) % w.bits) ∧
    rotrValue w (rotlValue w a s) s = a ∧
    onesCount (rotlValue w a s) = onesCount a ∧ onesCount (rotrValue w a s) = onesCount a ∧
    (s ≠ 0 → rotlValue w a s = shlValue w a s ||| shrValue (Claims.u w) a ((w.bits - s) % w.bits))

/-! ### Bit counts -/

/-- R140, R141: `cnto` (OP 0x08) gives Σ a[i] and `cntz` (OP 0x09) gives W less that; OVF = 0. Nothing but the outputs
changes. -/
def Obligations.PopulationCounts : Prop :=
  Claims.Encodes 0x08 .cnto ∧ Claims.Encodes 0x09 .cntz ∧
  ∀ (t : Ty) (s : State),
    let c := ∑ i ∈ Finset.range t.bits, (s.portA.getLsbD i).toNat
    exec (.cnto t) s = .next { s with out := { y := BitVec.ofNat 64 c, ovf := false, ill := false } } ∧
    exec (.cntz t) s = .next { s with out := { y := BitVec.ofNat 64 (t.bits - c), ovf := false, ill := false } }

/-- R142, R143: `clz` (OP 0x0A) gives W for a = 0, else W - 1 - m for the highest 1 bit m; `ctz` (OP 0x0B) gives W for a = 0,
else the lowest 1 bit; OVF = 0. Nothing but the outputs changes. -/
def Obligations.LeadingAndTrailingZeros : Prop :=
  Claims.Encodes 0x0A .clz ∧ Claims.Encodes 0x0B .ctz ∧
  ∀ (t : Ty) (s : State), ∃ c d : Nat,
    exec (.clz t) s = .next { s with out := { y := BitVec.ofNat 64 c, ovf := false, ill := false } } ∧
    exec (.ctz t) s = .next { s with out := { y := BitVec.ofNat 64 d, ovf := false, ill := false } } ∧
    ((∀ i, i < t.bits → s.portA.getLsbD i = false) → c = t.bits ∧ d = t.bits) ∧
    (∀ m, m < t.bits → s.portA.getLsbD m = true →
      ((∀ i, m < i → i < t.bits → s.portA.getLsbD i = false) → c = t.bits - 1 - m) ∧
      ((∀ i, i < m → s.portA.getLsbD i = false) → d = m))

/-- R144, R145: `clo` (OP 0x0C) and `cto` (OP 0x0D) are the zero counts of the complement: W for all ones, else the 1 bits
above the highest 0 bit and below the lowest; OVF = 0. Nothing but the outputs changes. -/
def Obligations.LeadingAndTrailingOnes : Prop :=
  Claims.Encodes 0x0C .clo ∧ Claims.Encodes 0x0D .cto ∧
  ∀ (t : Ty) (s : State), ∃ c d : Nat,
    exec (.clo t) s = .next { s with out := { y := BitVec.ofNat 64 c, ovf := false, ill := false } } ∧
    exec (.cto t) s = .next { s with out := { y := BitVec.ofNat 64 d, ovf := false, ill := false } } ∧
    exec (.clz t) { s with portA := ~~~s.portA } =
      .next { s with portA := ~~~s.portA, out := { y := BitVec.ofNat 64 c, ovf := false, ill := false } } ∧
    exec (.ctz t) { s with portA := ~~~s.portA } =
      .next { s with portA := ~~~s.portA, out := { y := BitVec.ofNat 64 d, ovf := false, ill := false } } ∧
    ((∀ i, i < t.bits → s.portA.getLsbD i = true) → c = t.bits ∧ d = t.bits) ∧
    (∀ m, m < t.bits → s.portA.getLsbD m = false →
      ((∀ i, m < i → i < t.bits → s.portA.getLsbD i = true) → c = t.bits - 1 - m) ∧
      ((∀ i, i < m → s.portA.getLsbD i = true) → d = m))

/-- R147, which the spec derives from R140 to R145: the count laws: the two population counts add up to W; only 0 has W
leading or trailing zeros; the ones counts are the zero counts of the complement; the bound for a ≠ 0; reversal exchanges
leading and trailing; the population count is kept by rbit, bswap and rotation. -/
def Obligations.CountLaws : Prop :=
  ∀ (w : Width) (a : Pattern w),
    onesCount a + zerosCount a = w.bits ∧
    (leadingZeros a = w.bits ↔ a = 0) ∧ (trailingZeros a = w.bits ↔ a = 0) ∧
    leadingOnes a = leadingZeros (~~~a) ∧ trailingOnes a = trailingZeros (~~~a) ∧
    (a ≠ 0 → leadingZeros a + trailingZeros a + onesCount a ≤ w.bits ∧ leadingZeros a + trailingZeros a ≤ w.bits - 1) ∧
    leadingZeros a = trailingZeros (rbitValue w a) ∧
    onesCount (rbitValue w a) = onesCount a ∧ onesCount (bswapValue w a) = onesCount a ∧
    (∀ s, s < w.bits → onesCount (rotlValue w a s) = onesCount a ∧ onesCount (rotrValue w a s) = onesCount a)

/-! ### Bit order and byte order -/

/-- R160, R161: `rbit` (OP 0x10) moves bit i to bit W-1-i and `bswap` (OP 0x11) moves byte k to byte BYTES-1-k, the bits of a
byte in their order; OVF = 0. Nothing but the outputs changes. -/
def Obligations.ReversalsMoveBitsAndBytes : Prop :=
  Claims.Encodes 0x10 .rbit ∧ Claims.Encodes 0x11 .bswap ∧
  ∀ (t : Ty) (s : State), ∃ r q : Pattern t.width,
    exec (.rbit t) s = .next { s with out := { y := r.setWidth 64, ovf := false, ill := false } } ∧
    exec (.bswap t) s = .next { s with out := { y := q.setWidth 64, ovf := false, ill := false } } ∧
    (∀ i, i < t.bits → r.getLsbD i = s.portA.getLsbD (t.bits - 1 - i)) ∧
    (∀ k, k < t.width.bytes → q.extractLsb' (8 * k) 8 = s.portA.extractLsb' (8 * (t.width.bytes - 1 - k)) 8)

/-- R163, R164: `tobe` (OP 0x12) and `tole` (OP 0x13): the identity where the native order is the one asked for and bswap
where it is not, and, derived in the spec from R162 and R43, the native bytes of the result are the big- or little-endian
bytes of a; OVF = 0. Nothing but the outputs changes. -/
def Obligations.EndianConversionsFollowTheNativeOrder : Prop :=
  Claims.Encodes 0x12 .tobe ∧ Claims.Encodes 0x13 .tole ∧
  ∀ (t : Ty) (s : State),
    let a : Pattern t.width := s.portA.setWidth t.bits
    ∃ be le sw : Pattern t.width,
      exec (.tobe t) s = .next { s with out := { y := be.setWidth 64, ovf := false, ill := false } } ∧
      exec (.tole t) s = .next { s with out := { y := le.setWidth 64, ovf := false, ill := false } } ∧
      exec (.bswap t) s = .next { s with out := { y := sw.setWidth 64, ovf := false, ill := false } } ∧
      (s.params.nativeEndian = .big → be = a ∧ le = sw) ∧ (s.params.nativeEndian = .little → be = sw ∧ le = a) ∧
      seqNE s.params.nativeEndian t.width be = seqBE t.width a ∧ seqNE s.params.nativeEndian t.width le = seqLE t.width a

/-- R166, which the spec derives from R160, R161, R163 and R164: rbit, bswap, tobe and tole undo themselves, on the core's own
Y fed back to A; on a given core one of tobe and tole is the identity and the other is bswap, and bswap is not the identity,
so exactly one of them is. -/
def Obligations.ReversalsAreInvolutions : Prop :=
  (∀ (p : Params) (t : Ty) (i : Instr), i ∈ [.rbit t, .bswap t, .tobe t, .tole t] → ∀ a b b' : Word,
    (coreFn p (encode i) (coreFn p (encode i) a b).y b').y.setWidth t.bits = a.setWidth t.bits) ∧
  (∀ (p : Params), (∀ (t : Ty) (a b : Word),
      (coreFn p (encode (.tobe t)) a b).y = (a.setWidth t.bits).setWidth 64 ∧
      coreFn p (encode (.tole t)) a b = coreFn p (encode (.bswap t)) a b) ∨
    (∀ (t : Ty) (a b : Word), (coreFn p (encode (.tole t)) a b).y = (a.setWidth t.bits).setWidth 64 ∧
      coreFn p (encode (.tobe t)) a b = coreFn p (encode (.bswap t)) a b)) ∧
  (∃ (t : Ty) (a : Word), ∀ (p : Params) (b : Word),
    (coreFn p (encode (.bswap t)) a b).y ≠ (a.setWidth t.bits).setWidth 64)

/-- R44: each byte sequence is a bijection between patterns and sequences of BYTES bytes, with the `from` function as its
inverse, and the big-endian sequence is the little-endian one reversed. R162, which the spec derives from R161 and R42: bswap
exchanges the two. -/
def Obligations.ByteSequencesAreBijections : Prop :=
  ∀ (w : Width),
    (∀ p : Pattern w, (seqBE w p).length = w.bytes ∧ (seqLE w p).length = w.bytes ∧
      ofSeqBE w (seqBE w p) = p ∧ ofSeqLE w (seqLE w p) = p ∧ (seqBE w p).reverse = seqLE w p ∧
      seqLE w (bswapValue w p) = seqBE w p ∧ seqBE w (bswapValue w p) = seqLE w p ∧
      ∀ e, ofSeqNE e w (seqNE e w p) = p) ∧
    (∀ l : List Byte, l.length = w.bytes → seqBE w (ofSeqBE w l) = l ∧ seqLE w (ofSeqLE w l) = l ∧
      ∀ e, seqNE e w (ofSeqNE e w l) = l)

/-! ### The requester -/

/-- R77, the first row, over the decoder: when the line at the line index is a command whose word decodes to i and whose
sources read as a and b, the step presents it, runs i on the driven ports, that B of a line with one source is what the port B
carried is the model's choice (log 8); it takes Y into the destination and OVF and ILL into the host bits, and goes to the
next line. -/
def Obligations.StepRunsTheDecodedInstruction : Prop :=
  ∀ (s : State) (dst : Nat) (cmd : CmdWord) (srcA : Src) (srcB : Option Src) (i : Instr) (a b : Word),
    s.status = .running → s.prog[s.line]? = some (.command dst cmd srcA srcB) → decode cmd = .ok i →
    s.readSrc srcA = .ok a → s.readSrcB srcB = .ok b →
    ∃ s', exec i { s with portCmd := cmd, portA := a, portB := b } = .next s' ∧
      step s = .next { s' with
        vars := insertVar dst s'.out.y s'.vars
        hostOvf := s'.out.ovf
        hostIll := s'.out.ill
        line := s'.line + 1 }

/-- R66, R201: a line that presents an illegal word is a fault of the requester's step, not a no-op and not a value; that the
core completes it first and the step is what faults is the model's reading (log 6). -/
def Obligations.IllegalCommandFaultsTheStep : Prop :=
  ∀ (s : State) (dst : Nat) (cmd : CmdWord) (srcA : Src) (srcB : Option Src) (a b : Word),
    s.status = .running → s.prog[s.line]? = some (.command dst cmd srcA srcB) → legal cmd = false →
    s.readSrc srcA = .ok a → s.readSrcB srcB = .ok b → step s = .fault (.illegalCommand cmd)

/-- R77: the effect of every line: a command, a literal, the branches, `goto`, `halt` and `fail`, a read of an unwritten
variable, and a line index outside the program; the model's choices in it are that B of a line with one source is what the
port B carried (log 8), that an unwritten source is reported before an illegal word and the first source before the second
(log 10), and that `halt` and `fail` leave the line index (log 13). -/
def Obligations.HostLinesHaveTheirEffects : Prop :=
  ∀ (s : State), s.status = .running →
    (∀ dst cmd srcA srcB a b, s.prog[s.line]? = some (.command dst cmd srcA srcB) → s.readSrc srcA = .ok a →
      s.readSrcB srcB = .ok b → legal cmd = true →
      step s = .next { s with
        portCmd := cmd
        portA := a
        portB := b
        out := coreFn s.params cmd a b
        vars := insertVar dst (coreFn s.params cmd a b).y s.vars
        hostOvf := (coreFn s.params cmd a b).ovf
        hostIll := (coreFn s.params cmd a b).ill
        line := s.line + 1 }) ∧
    (∀ dst w, s.prog[s.line]? = some (.setWord dst w) →
      step s = .next { s with vars := insertVar dst w s.vars, line := s.line + 1 }) ∧
    (∀ want m, s.prog[s.line]? = some (.ifOvf want m) →
      step s = .next { s with line := if s.hostOvf = want then m else s.line + 1 }) ∧
    (∀ m, s.prog[s.line]? = some (.ifIll m) →
      step s = .next { s with line := if s.hostIll = true then m else s.line + 1 }) ∧
    (∀ x w m v, s.prog[s.line]? = some (.ifEq x w m) → s.readVar x = some v →
      step s = .next { s with line := if v = w then m else s.line + 1 }) ∧
    (∀ x w m v, s.prog[s.line]? = some (.ifNe x w m) → s.readVar x = some v →
      step s = .next { s with line := if v ≠ w then m else s.line + 1 }) ∧
    (∀ m, s.prog[s.line]? = some (.goto m) → step s = .next { s with line := m }) ∧
    (s.prog[s.line]? = some .halt → step s = .next { s with status := .done }) ∧
    (∀ msg, s.prog[s.line]? = some (.fail msg) → step s = .next { s with status := .failed msg }) ∧
    (∀ x w m, s.prog[s.line]? = some (.ifEq x w m) ∨ s.prog[s.line]? = some (.ifNe x w m) → s.readVar x = none →
      step s = .fault (.unwrittenVariable x)) ∧
    (∀ dst cmd x srcB, s.prog[s.line]? = some (.command dst cmd (.var x) srcB) → s.readVar x = none →
      step s = .fault (.unwrittenVariable x)) ∧
    (∀ dst cmd srcA x a, s.prog[s.line]? = some (.command dst cmd srcA (some (.var x))) → s.readSrc srcA = .ok a →
      s.readVar x = none → step s = .fault (.unwrittenVariable x)) ∧
    (s.prog.length ≤ s.line → step s = .fault (.lineOutside s.line))

/-- R77, over the host variables: a written variable reads as what was written, every other one as before, and a variable that
is not in the list of written ones has no value. -/
def Obligations.HostVariablesReadBack : Prop :=
  ∀ (s : State) (x : Nat) (w : Word), (s.writeVar x w).readVar x = some w ∧
    (∀ z, z ≠ x → (s.writeVar x w).readVar z = s.readVar z) ∧
    (s.readVar x = none ↔ x ∉ s.vars.map (fun kv => kv.1))

/-- The model's choice (log 19): a word placed by `withFetchWord` that decodes to i is run by the very next step, on the
operands the ports carry. -/
def Obligations.PlacedWordRunsNext : Prop :=
  ∀ (s : State) (nbits w : Nat) (i : Instr), decodeTableWord nbits w = some i →
    ∃ t, step (s.withFetchWord nbits w) = .next t ∧ t.out = coreFn s.params (encode i) s.portA s.portB ∧
      t.readVar 0 = some t.out.y ∧ t.line = s.line + 1

/-! ### The assembler -/

/-- R72: which literals are accepted and the word they drive: decimal ones in range for a type, decimal ones below 2^32 for an
amount, and a hexadecimal literal of a signed type as a bit pattern; the model's reading (log 12): a hexadecimal literal of an
unsigned type or an amount is a number, and one too wide for its place is refused. Per operand: a command assembles exactly
when A, and B of a binary command, read as literals of the type or as variables, and B of a shift command as an amount or a
variable, and a unary command has no B; `neg` is left to its expansion (R76). A literal that its place does not accept is
refused by name. -/
def Obligations.LiteralsAreRangeChecked : Prop :=
  (∀ (t : Ty) (n : Int), typedLiteral t (.dec n) =
    if minOf t ≤ n ∧ n ≤ maxOf t then .ok ((enc t.bits n).setWidth 64) else .error (.literalOutOfRange (.dec n))) ∧
  (∀ (n : Int), amountLiteral (.dec n) =
    if 0 ≤ n ∧ n < 2 ^ 32 then .ok ((enc 32 n).setWidth 64) else .error (.literalOutOfRange (.dec n))) ∧
  (∀ (w : Width) (q : Pattern w), typedLiteral (Claims.i w) (.hex q.toNat) = .ok (q.setWidth 64) ∧
    (Literal.hex q.toNat).typed (Claims.i w) = some (sval q)) ∧
  (∀ (w : Width) (q : Pattern w), typedLiteral (Claims.u w) (.hex q.toNat) = .ok (q.setWidth 64)) ∧
  (∀ (t : Ty) (n : Nat), 2 ^ t.bits ≤ n → typedLiteral t (.hex n) = .error (.literalOutOfRange (.hex n))) ∧
  (∀ n : Nat, amountLiteral (.hex n) =
    if n < 2 ^ 32 then .ok (BitVec.ofNat 64 n) else .error (.literalOutOfRange (.hex n))) ∧
  (∀ (p : Params) (m : Mnemonic) (ty : TypeSuffix) (y : Nat) (oA : Operand) (oB : Option Operand), m ≠ .neg →
    let t := ty.ty p
    let c : Command := { mnemonic := m, suffix := ty, dst := y, src1 := oA, src2 := oB }
    (∀ line, assembleCommand p c = .ok line ↔ ∃ srcA srcB, line = .command y (encode (m.instr t)) srcA srcB ∧
      Claims.ReadsAs (typedLiteral t) oA srcA ∧
      match (m.instr t).opClass with
      | .binary => ∃ o src, oB = some o ∧ srcB = some src ∧ Claims.ReadsAs (typedLiteral t) o src
      | .shift => ∃ o src, oB = some o ∧ srcB = some src ∧ Claims.ReadsAs amountLiteral o src
      | .unary => oB = none ∧ srcB = none) ∧
    (∀ l e, oA = .lit l → typedLiteral t l = .error e → assembleCommand p c = .error (.literalOutOfRange l)) ∧
    (∀ l e srcA, Claims.ReadsAs (typedLiteral t) oA srcA → oB = some (.lit l) →
      ((m.instr t).opClass = .binary ∧ typedLiteral t l = .error e) ∨
        ((m.instr t).opClass = .shift ∧ amountLiteral l = .error e) →
      assembleCommand p c = .error (.literalOutOfRange l)))

/-- R73: every assembled command has the word (SGN << 7) | (WSEL << 5) | OP of its mnemonic and type, so RSV = 0, and, derived
in the spec from R60 and R65, the assembler emits no illegal command; so add.i8 is 0x0080, mul.i32 is 0x00C2 and tole.u64 is
0x0073. -/
def Obligations.AssembledCommandsAreLegal : Prop :=
  (encode (.add (Claims.i .w8)) = 0x0080 ∧ encode (.mul (Claims.i .w32)) = 0x00C2 ∧
    encode (.tole (Claims.u .w64)) = 0x0073) ∧
  ∀ (p : Params) (c : Command) (l : Line), assembleCommand p c = .ok l →
    ∃ cmd srcA srcB, l = .command c.dst cmd srcA srcB ∧ legal cmd = true ∧ cmd.toNat / 256 = 0 ∧
      cmd.toNat = Claims.typeField (c.suffix.ty p) + (c.mnemonic.instr (c.suffix.ty p)).op.toNat

/-- R75, R71: `usize` and `isize` assemble as the unsigned and signed type of width PTR_BITS. -/
def Obligations.PointerTypesAssembleByPtrBits : Prop :=
  ∀ (p : Params) (c c' : Command), c = { c' with suffix := c.suffix } →
    (c.suffix = .usize ∧ c'.suffix = suffixOf (Claims.u p.ptrBits)) ∨
      (c.suffix = .isize ∧ c'.suffix = suffixOf (Claims.i p.ptrBits)) →
    assembleCommand p c = assembleCommand p c'

/-- R76: the four pseudo-instructions assemble to their expansions. -/
def Obligations.PseudoInstructionsExpand : Prop :=
  ∀ (p : Params) (ty : TypeSuffix) (y : Nat) (x : Operand),
    assembleCommand p { mnemonic := .neg, suffix := ty, dst := y, src1 := x, src2 := none } =
      assembleCommand p { mnemonic := .sub, suffix := ty, dst := y, src1 := .lit (.dec 0), src2 := some x } ∧
    assembleCommand p { mnemonic := .frombe, suffix := ty, dst := y, src1 := x, src2 := none } =
      assembleCommand p { mnemonic := .tobe, suffix := ty, dst := y, src1 := x, src2 := none } ∧
    assembleCommand p { mnemonic := .fromle, suffix := ty, dst := y, src1 := x, src2 := none } =
      assembleCommand p { mnemonic := .tole, suffix := ty, dst := y, src1 := x, src2 := none } ∧
    assembleCommand p { mnemonic := .popcnt, suffix := ty, dst := y, src1 := x, src2 := none } =
      assembleCommand p { mnemonic := .cnto, suffix := ty, dst := y, src1 := x, src2 := none }

/-- R74: a legal word prints as its mnemonic and type, with no `usize` or `isize`, and what is printed reads back and
assembles to that word; an illegal word prints as `.word 0x` and its digits. -/
def Obligations.DisassemblyIsTheInverse : Prop :=
  (∀ (p : Params) (i : Instr), ∃ m ty, readOperation (disassemble (encode i)) = some (m, ty) ∧
    disassemble (encode i) = m.text ++ "." ++ ty.text ∧ ty ≠ .usize ∧ ty ≠ .isize ∧ m.instr (ty.ty p) = i) ∧
  (∀ cmd : CmdWord, legal cmd = false → disassemble cmd = ".word 0x" ++ hexText cmd)

/-! ### The consumer's result forms -/

/-- R181, R192, and the OVF part of R182 to R185: each of the overflowing, wrapping, default, checked and unchecked forms is a
function of the value v and the flag OVF of one command: the default form is a hard failure, the checked form absent and
`unchecked_*` a fault exactly when OVF = 1. The sixth, the saturating form, also needs the exact result and is in
SaturatingForms, SaturationSideFromOperands, ShiftForms and OtherFormsNeverFail. -/
def Obligations.FormsSurfaceOneCommand : Prop :=
  ∀ (p : Params) (i : Instr) (a b : Word),
    let o := coreFn p (encode i) a b
    let v := val i.ty (o.y.setWidth i.ty.bits)
    formOf .overflowing p i a b = .next (.pair v o.ovf) ∧ formOf .wrapping p i a b = .next (.value v) ∧
    (o.ovf = false → formOf .default p i a b = .next (.value v) ∧ formOf .checked p i a b = .next (.present v) ∧
      formOf .unchecked p i a b = .next (.value v)) ∧
    (o.ovf = true → (∃ msg, formOf .default p i a b = .next (.hardFailure msg)) ∧
      formOf .checked p i a b = .next .absent ∧ formOf .unchecked p i a b = .fault .uncheckedPrecondition)

/-- R182, R183, R184, R185: the overflowing, wrapping, default and checked forms of add, sub and mul: with OVF = 0 the value
is the exact result; with OVF = 1 the overflowing form is the wrapped value with true, the default form is a hard failure and
the checked form is absent; checked is present exactly when the exact result is in range. -/
def Obligations.ArithmeticForms : Prop :=
  ∀ (p : Params) (i : Instr) (a b : Word) (n : Int), exactOf i a b = some n →
    let t := i.ty
    let v := val t (enc t.bits n)
    (minOf t ≤ n ∧ n ≤ maxOf t →
      formOf .overflowing p i a b = .next (.pair n false) ∧ formOf .wrapping p i a b = .next (.value n) ∧
      formOf .default p i a b = .next (.value n) ∧ formOf .checked p i a b = .next (.present n)) ∧
    (¬(minOf t ≤ n ∧ n ≤ maxOf t) →
      formOf .overflowing p i a b = .next (.pair v true) ∧ formOf .wrapping p i a b = .next (.value v) ∧
      (∃ msg, formOf .default p i a b = .next (.hardFailure msg)) ∧ formOf .checked p i a b = .next .absent)

/-- R186: the saturating form of add, sub and mul is MAX when the exact result is above MAX, MIN when it is below MIN, and the
exact result otherwise. -/
def Obligations.SaturatingForms : Prop :=
  ∀ (p : Params) (i : Instr) (a b : Word) (n : Int), exactOf i a b = some n →
    formOf .saturating p i a b = .next (.value (max (minOf i.ty) (min n (maxOf i.ty))))

/-- R187, which the spec derives from R186, R100, R103 and R106: when OVF = 1, the side told from the operands is the bound
the saturating form gives. -/
def Obligations.SaturationSideFromOperands : Prop :=
  ∀ (p : Params) (i : Instr) (a b : Word) (n : Int), exactOf i a b = some n → (opOut p i a b).ovf = true →
    ∃ m, saturationSide i a b = some m ∧ formOf .saturating p i a b = .next (.value m)

/-- R188, which the spec derives from R182 to R187 and R103: negation, `sub.T 0, x`: signed overflows exactly for MIN, which
wraps to MIN and saturates to MAX; unsigned overflows exactly for x ≠ 0, where checked is absent and saturating is 0. -/
def Obligations.NegationForms : Prop :=
  (∀ (f : Form) (p : Params) (t : Ty) (x : Word), negForm f p t x = formOf f p (.sub t) 0 x) ∧
  (∀ (p : Params) (w : Width) (x : Word), let t := Claims.i w
    let v := sval (x.setWidth w.bits)
    (v ≠ minOf t → negForm .overflowing p t x = .next (.pair (-v) false)) ∧
    (v = minOf t → negForm .overflowing p t x = .next (.pair (minOf t) true) ∧
      negForm .wrapping p t x = .next (.value (minOf t)) ∧ negForm .saturating p t x = .next (.value (maxOf t)) ∧
      negForm .checked p t x = .next .absent ∧ ∃ msg, negForm .default p t x = .next (.hardFailure msg))) ∧
  (∀ (p : Params) (w : Width) (x : Word), let t := Claims.u w
    (x.setWidth w.bits = 0#w.bits → negForm .checked p t x = .next (.present 0)) ∧
    (x.setWidth w.bits ≠ 0#w.bits → negForm .checked p t x = .next .absent ∧ negForm .saturating p t x = .next (.value 0)))

/-- R189: absolute value: |x| in every form for x ≠ MIN; for MIN the default form fails, checked is absent, saturating gives
MAX and wrapping gives MIN; `unsigned_abs` is always exact. -/
def Obligations.AbsoluteValueForms : Prop :=
  ∀ (p : Params) (w : Width) (x : Word), let t := Claims.i w
    let v := sval (x.setWidth w.bits)
    unsignedAbs p w x = |v| ∧
    (v ≠ minOf t → absForm .default p w x = .next (.value |v|) ∧ absForm .checked p w x = .next (.present |v|) ∧
      absForm .saturating p w x = .next (.value |v|) ∧ absForm .wrapping p w x = .next (.value |v|)) ∧
    (v = minOf t → (∃ msg, absForm .default p w x = .next (.hardFailure msg)) ∧ absForm .checked p w x = .next .absent ∧
      absForm .saturating p w x = .next (.value (maxOf t)) ∧ absForm .wrapping p w x = .next (.value (minOf t)))

/-- R190: for shl and shr the checked form is absent and the default form fails exactly when amt ≥ W; the overflowing and
wrapping forms are the masked shift; a saturating shift is refused, for every amount (log 14). -/
def Obligations.ShiftForms : Prop :=
  ∀ (p : Params) (t : Ty) (i : Instr), i = .shl t ∨ i = .shr t → ∀ a b : Word,
    let amt := b.toNat % 2 ^ 32
    let v := val t ((coreFn p (encode i) a (BitVec.ofNat 64 (amt % t.bits))).y.setWidth t.bits)
    formOf .overflowing p i a b = .next (.pair v (decide (t.bits ≤ amt))) ∧ formOf .wrapping p i a b = .next (.value v) ∧
    formOf .saturating p i a b = .refused .saturatingShift ∧
    (t.bits ≤ amt → formOf .checked p i a b = .next .absent ∧ ∃ msg, formOf .default p i a b = .next (.hardFailure msg)) ∧
    (amt < t.bits → formOf .checked p i a b = .next (.present v) ∧ formOf .default p i a b = .next (.value v))

/-- R191, which the spec derives from R125, R126, R140 to R145 and R160 to R164: the rotations, the counts and the bit and
byte operations give OVF = 0; each of their forms equals the value of Y, and none fails. -/
def Obligations.OtherFormsNeverFail : Prop :=
  ∀ (p : Params) (i : Instr) (a b : Word), i ∉ [.add i.ty, .sub i.ty, .mul i.ty, .shl i.ty, .shr i.ty] →
    (coreFn p (encode i) a b).ovf = false ∧
    let v := val i.ty ((coreFn p (encode i) a b).y.setWidth i.ty.bits)
    formOf .default p i a b = .next (.value v) ∧ formOf .checked p i a b = .next (.present v) ∧
      formOf .overflowing p i a b = .next (.pair v false) ∧ formOf .wrapping p i a b = .next (.value v) ∧
      formOf .saturating p i a b = .next (.value v) ∧ formOf .unchecked p i a b = .next (.value v)

/-- R193: a compound assignment replaces the held value with the default form's result; where that is a hard failure the run
has failed and the held value is kept, which is the model's choice (log 15), as is that it runs whatever the status of the run
is (log 23) and for every operation, unary ones included (log 25). -/
def Obligations.CompoundAssignmentReplacesTheHeldValue : Prop :=
  ∀ (s : State) (i : Instr) (x : Nat) (rhs : Src) (a b : Word), s.readVar x = some a → s.readSrc rhs = .ok b →
    ∃ t, compoundAssign i x rhs s = .next t ∧
      (∀ v, formOf .default s.params i a b = .next (.value v) →
        ∃ w, t.readVar x = some w ∧ val i.ty (w.setWidth i.ty.bits) = v ∧ t.status = s.status) ∧
      (∀ msg, formOf .default s.params i a b = .next (.hardFailure msg) →
        t.readVar x = some a ∧ t.status = .failed msg)

/-! ### Invariants -/

/-- R31, with the model's reading that the requester's step faults on ILL = 1 (R66, R201, log 6) and that State holds the
outputs as last driven (log 3): after every step the outputs are CORE of the inputs then applied, ILL and the host bit that
takes it are 0, and the host variables are in canonical form, if they were before. -/
def Obligations.StepKeepsTheInvariant : Prop := ∀ s s' : State, s.Inv → step s = .next s' → s'.Inv

/-- R31, R77, R220: after reset the invariant holds, the run is at line 0 and no host variable is written. The model's choices
in it: the ports are at 0 (log 2), so that the outputs, held in State (log 3), are CORE(0, 0, 0) with ILL = 0; the host bits
are 0 (log 5); and nothing is loaded, so the first step is outside the program (log 4). -/
def Obligations.ResetMeetsTheInvariant : Prop :=
  State.reset.Inv ∧ State.reset.line = 0 ∧ State.reset.status = .running ∧ (∀ x, State.reset.readVar x = none) ∧
    step State.reset = .fault (.lineOutside 0)

/-- R29, R31: no step changes PTR_BITS or NATIVE_ENDIAN; and by 30_encoding.md §5, where no line of R77 changes the lines, nor
the program. -/
def Obligations.NoStepChangesTheParameters : Prop :=
  ∀ s s' : State, step s = .next s' → s'.params = s.params ∧ s'.prog = s.prog

/-- R77, R73 with R65, on a whole run: from a state whose program is well formed, after any number of steps the line index is
still on a line, and the run can stop only on a variable nothing has written or because it has ended (log 7); it never faults
on an illegal command or outside the program. -/
def Obligations.WellFormedProgramsStopOnlyWhereAllowed : Prop :=
  ∀ (s : State) (k : Nat), s.ProgramOk →
    match Sys2Proof.core.run k s with
    | .next s' => State.ProgramOk s'
    | .fault f => Fault.allowed f = true
    | .refused _ => False

/-- R77, log 7: a run that has reached `halt` or `fail` has no next line. -/
def Obligations.EndedRunsHaveNoNextLine : Prop :=
  ∀ (s : State), s.status ≠ .running → step s = .fault .runEnded

/-- R222: a command that uses the previous command's Y needs no wait: of two command lines in a row, the second reads its
sources, of whatever kind, as they stand after the first, with the first's Y in its destination, and gives CORE of them; where
a source of the second, A or B, is the first's destination, it is CORE's Y. That B of a line with one source is what the port
B carried is the model's choice (log 8). -/
def Obligations.BackToBackCommandsNeedNoWait : Prop :=
  ∀ (s : State) (d e : Nat) (c c' : CmdWord) (srcA srcA' : Src) (srcB srcB' : Option Src) (a b a' b' : Word),
    s.status = .running → s.prog[s.line]? = some (.command d c srcA srcB) →
    s.prog[s.line + 1]? = some (.command e c' srcA' srcB') →
    s.readSrc srcA = .ok a → s.readSrcB srcB = .ok b → legal c = true → legal c' = true →
    let y := (coreFn s.params c a b).y
    let after : State := { s with portB := b, vars := insertVar d y s.vars }
    after.readSrc srcA' = .ok a' → after.readSrcB srcB' = .ok b' →
    (srcA' = .var d → a' = y) ∧ (srcB' = some (.var d) → b' = y) ∧
    ∃ t, Sys2Proof.core.run 2 s = .next t ∧
      State.out t = coreFn s.params c' a' b' ∧ State.line t = s.line + 2 ∧
      State.readVar t e = some (coreFn s.params c' a' b').y ∧
      (∀ z, z ≠ d → z ≠ e → State.readVar t z = s.readVar z)

/-! ### Written and loaded host programs -/

/-- R77, over written programs: each line keeps its number; the word of `y = n`, of `if y == n` and of `if y != n` is
zext_64(enc_64(n)), in the run of the assembled program. That a hexadecimal n stands for its number is the model's reading
(log 12). -/
def Obligations.WrittenProgramsRunLineByLine : Prop :=
  (∀ (p : Params) (src : List SourceLine) (prog : List Line), assemble p src = .ok prog →
    prog.length = src.length ∧
    ∀ (k : Nat) (l : SourceLine), src[k]? = some l → ∃ m, assembleLine p l = .ok m ∧ prog[k]? = some m) ∧
  (∀ (s : State) (src : List SourceLine) (l : Literal) (n : Int),
    assemble s.params src = .ok s.prog → s.status = .running →
    l = .dec n ∨ (∃ k : Nat, l = .hex k ∧ n = k) →
    (∀ x, src[s.line]? = some (.setLit x l) →
      step s = .next { s with vars := insertVar x ((enc 64 n).setWidth 64) s.vars, line := s.line + 1 }) ∧
    (∀ x m v, src[s.line]? = some (.ifEq x l m) → s.readVar x = some v →
      step s = .next { s with line := if v = (enc 64 n).setWidth 64 then m else s.line + 1 }) ∧
    (∀ x m v, src[s.line]? = some (.ifNe x l m) → s.readVar x = some v →
      step s = .next { s with line := if v ≠ (enc 64 n).setWidth 64 then m else s.line + 1 }))

/-- R77, R221, over the start of a host program: it starts at line 0 with the variables of its start list, every other one
unwritten. The model's choices in it: the program is loaded from outside the machine and leaves the core's ports (log 4), the
host bits start at 0 (log 5), and of two entries for one variable the last holds (log 24). -/
def Obligations.LoadedProgramsStartAtLineZero : Prop :=
  ∀ (s : State) (prog : List Line) (start : List (Nat × Word)), let t := s.load prog start
    t.prog = prog ∧ t.line = 0 ∧ t.status = .running ∧ t.hostOvf = false ∧ t.hostIll = false ∧
    t.params = s.params ∧ t.portCmd = s.portCmd ∧ t.portA = s.portA ∧ t.portB = s.portB ∧ t.out = s.out ∧
    varsWf t.vars = true ∧ (s.Inv → t.Inv) ∧
    (∀ x, x ∉ start.map (fun kv => kv.1) → t.readVar x = none) ∧
    (∀ x w before rest, start = before ++ (x, w) :: rest → x ∉ rest.map (fun kv => kv.1) → t.readVar x = some w)
end

