-- ==== Sys2Proof/Laws/Assembler.lean ====
section
/-! SUPPORT. What each part of the assembler can answer, said once. -/

namespace Sys2Proof.Machine

/-- A literal of a type is driven as a word or refused by name. -/
theorem typedLiteral_cases (t : Ty) (l : Literal) :
    (∃ w, typedLiteral t l = .ok w) ∨ typedLiteral t l = .error (.literalOutOfRange l) := by
  unfold typedLiteral
  split
  · split
    · exact .inl ⟨_, rfl⟩
    · exact .inr rfl
  · exact .inr rfl

/-- An amount is driven as a word or refused by name. -/
theorem amountLiteral_cases (l : Literal) :
    (∃ w, amountLiteral l = .ok w) ∨ amountLiteral l = .error (.literalOutOfRange l) := by
  unfold amountLiteral
  split
  · exact .inl ⟨_, rfl⟩
  · exact .inr rfl

@[simp] theorem assembleOperand_var (lit : Literal → Except AsmError Word) (x : Var) :
    assembleOperand lit (.var x) = .ok (.var x) := rfl

theorem assembleOperand_lit_ok {lit : Literal → Except AsmError Word} {l : Literal} {w : Word} (h : lit l = .ok w) :
    assembleOperand lit (.lit l) = .ok (.word w) := by
  simp only [assembleOperand, h]

theorem assembleOperand_lit_error {lit : Literal → Except AsmError Word} {l : Literal} {e : AsmError}
    (h : lit l = .error e) : assembleOperand lit (.lit l) = .error e := by
  simp only [assembleOperand, h]

/-- A command that is not `neg` expands to one with the same instruction and the same operands. -/
theorem expand_of_ne_neg {c : Command} (h : c.mnemonic ≠ .neg) :
    ∃ m, c.expand = .ok { c with mnemonic := m } ∧ m.instr = c.mnemonic.instr := by
  obtain ⟨m, ty, dst, src1, src2⟩ := c
  cases m <;> first | exact absurd rfl h | exact ⟨_, rfl, rfl⟩

/-- A command that is not `neg` assembles from its own mnemonic's instruction, as a command of R61 does. -/
theorem assembleCommand_of_ne_neg {p : Params} {c : Command} (h : c.mnemonic ≠ .neg) :
    assembleCommand p c = assembleExpanded p c := by
  obtain ⟨m, he, hm⟩ := expand_of_ne_neg h
  simp only [assembleCommand, he, assembleExpanded, Command.instr, hm]

/-- A command of R61 assembles exactly when both its sources do. -/
theorem assembleExpanded_ok_iff {p : Params} {c : Command} {line : Line} :
    assembleExpanded p c = .ok line ↔ ∃ a b, assembleOperand (typedLiteral (c.suffix.ty p)) c.src1 = .ok a ∧
      assembleSecond (c.instr p).opClass (c.suffix.ty p) c.src2 = .ok b ∧
      line = .command c.dst (encode (c.instr p)) a b := by
  unfold assembleExpanded
  split
  · next a b ha hb => simp [ha, hb, eq_comm]
  · next e _ ha => simp [ha]
  · next a e ha hb => simp [hb]

/-- A first source that is refused refuses the command. -/
theorem assembleExpanded_error_first {p : Params} {c : Command} {e : AsmError}
    (h : assembleOperand (typedLiteral (c.suffix.ty p)) c.src1 = .error e) : assembleExpanded p c = .error e := by
  simp only [assembleExpanded, h]

/-- After a first source that is read, a second one that is refused refuses the command. -/
theorem assembleExpanded_error_second {p : Params} {c : Command} {a : Src} {e : AsmError}
    (ha : assembleOperand (typedLiteral (c.suffix.ty p)) c.src1 = .ok a)
    (h : assembleSecond (c.instr p).opClass (c.suffix.ty p) c.src2 = .error e) : assembleExpanded p c = .error e := by
  simp only [assembleExpanded, ha, h]

/-- A program assembles line by line. -/
theorem assemble_ok {p : Params} {src : List SourceLine} {prog : List Line} (h : assemble p src = .ok prog) :
    List.Forall₂ (fun l k => assembleLine p l = .ok k) src prog := by
  induction src generalizing prog with
  | nil => cases h; exact .nil
  | cons l rest ih =>
    unfold assemble at h
    split at h
    · next k ks hk hks => cases h; exact .cons hk (ih hks)
    · cases h
    · cases h

end Sys2Proof.Machine
end

