-- ==== Sys2Proof/Laws/State.lean ====
section
/-! SUPPORT. What each update of the state leaves in each field, one lemma per field per update. -/

namespace Sys2Proof.Machine

section Updates
variable (s : State) (cmd : CmdWord) (a b : Word) (o : Out) (x : Var) (w : Word) (n : Nat) (st : Status)
  (prog : List Line) (start : List (Var × Word))

@[simp] theorem drive_params : (s.drive cmd a b).params = s.params := rfl
@[simp] theorem drive_portCmd : (s.drive cmd a b).portCmd = cmd := rfl
@[simp] theorem drive_portA : (s.drive cmd a b).portA = a := rfl
@[simp] theorem drive_portB : (s.drive cmd a b).portB = b := rfl
@[simp] theorem drive_out : (s.drive cmd a b).out = s.out := rfl
@[simp] theorem drive_prog : (s.drive cmd a b).prog = s.prog := rfl
@[simp] theorem drive_vars : (s.drive cmd a b).vars = s.vars := rfl
@[simp] theorem drive_hostOvf : (s.drive cmd a b).hostOvf = s.hostOvf := rfl
@[simp] theorem drive_hostIll : (s.drive cmd a b).hostIll = s.hostIll := rfl
@[simp] theorem drive_line : (s.drive cmd a b).line = s.line := rfl
@[simp] theorem drive_status : (s.drive cmd a b).status = s.status := rfl

@[simp] theorem setOut_params : (s.setOut o).params = s.params := rfl
@[simp] theorem setOut_portCmd : (s.setOut o).portCmd = s.portCmd := rfl
@[simp] theorem setOut_portA : (s.setOut o).portA = s.portA := rfl
@[simp] theorem setOut_portB : (s.setOut o).portB = s.portB := rfl
@[simp] theorem setOut_out : (s.setOut o).out = o := rfl
@[simp] theorem setOut_prog : (s.setOut o).prog = s.prog := rfl
@[simp] theorem setOut_vars : (s.setOut o).vars = s.vars := rfl
@[simp] theorem setOut_hostOvf : (s.setOut o).hostOvf = s.hostOvf := rfl
@[simp] theorem setOut_hostIll : (s.setOut o).hostIll = s.hostIll := rfl
@[simp] theorem setOut_line : (s.setOut o).line = s.line := rfl
@[simp] theorem setOut_status : (s.setOut o).status = s.status := rfl

@[simp] theorem writeVar_params : (s.writeVar x w).params = s.params := rfl
@[simp] theorem writeVar_portCmd : (s.writeVar x w).portCmd = s.portCmd := rfl
@[simp] theorem writeVar_portA : (s.writeVar x w).portA = s.portA := rfl
@[simp] theorem writeVar_portB : (s.writeVar x w).portB = s.portB := rfl
@[simp] theorem writeVar_out : (s.writeVar x w).out = s.out := rfl
@[simp] theorem writeVar_prog : (s.writeVar x w).prog = s.prog := rfl
@[simp] theorem writeVar_vars : (s.writeVar x w).vars = insertVar x w s.vars := rfl
@[simp] theorem writeVar_hostOvf : (s.writeVar x w).hostOvf = s.hostOvf := rfl
@[simp] theorem writeVar_hostIll : (s.writeVar x w).hostIll = s.hostIll := rfl
@[simp] theorem writeVar_line : (s.writeVar x w).line = s.line := rfl
@[simp] theorem writeVar_status : (s.writeVar x w).status = s.status := rfl

@[simp] theorem latchBits_params : s.latchBits.params = s.params := rfl
@[simp] theorem latchBits_portCmd : s.latchBits.portCmd = s.portCmd := rfl
@[simp] theorem latchBits_portA : s.latchBits.portA = s.portA := rfl
@[simp] theorem latchBits_portB : s.latchBits.portB = s.portB := rfl
@[simp] theorem latchBits_out : s.latchBits.out = s.out := rfl
@[simp] theorem latchBits_prog : s.latchBits.prog = s.prog := rfl
@[simp] theorem latchBits_vars : s.latchBits.vars = s.vars := rfl
@[simp] theorem latchBits_hostOvf : s.latchBits.hostOvf = s.out.ovf := rfl
@[simp] theorem latchBits_hostIll : s.latchBits.hostIll = s.out.ill := rfl
@[simp] theorem latchBits_line : s.latchBits.line = s.line := rfl
@[simp] theorem latchBits_status : s.latchBits.status = s.status := rfl

@[simp] theorem goto_params : (s.goto n).params = s.params := rfl
@[simp] theorem goto_portCmd : (s.goto n).portCmd = s.portCmd := rfl
@[simp] theorem goto_portA : (s.goto n).portA = s.portA := rfl
@[simp] theorem goto_portB : (s.goto n).portB = s.portB := rfl
@[simp] theorem goto_out : (s.goto n).out = s.out := rfl
@[simp] theorem goto_prog : (s.goto n).prog = s.prog := rfl
@[simp] theorem goto_vars : (s.goto n).vars = s.vars := rfl
@[simp] theorem goto_hostOvf : (s.goto n).hostOvf = s.hostOvf := rfl
@[simp] theorem goto_hostIll : (s.goto n).hostIll = s.hostIll := rfl
@[simp] theorem goto_line : (s.goto n).line = n := rfl
@[simp] theorem goto_status : (s.goto n).status = s.status := rfl

@[simp] theorem advance_eq_goto : s.advance = s.goto (s.line + 1) := rfl

@[simp] theorem finish_params : (s.finish st).params = s.params := rfl
@[simp] theorem finish_portCmd : (s.finish st).portCmd = s.portCmd := rfl
@[simp] theorem finish_portA : (s.finish st).portA = s.portA := rfl
@[simp] theorem finish_portB : (s.finish st).portB = s.portB := rfl
@[simp] theorem finish_out : (s.finish st).out = s.out := rfl
@[simp] theorem finish_prog : (s.finish st).prog = s.prog := rfl
@[simp] theorem finish_vars : (s.finish st).vars = s.vars := rfl
@[simp] theorem finish_hostOvf : (s.finish st).hostOvf = s.hostOvf := rfl
@[simp] theorem finish_hostIll : (s.finish st).hostIll = s.hostIll := rfl
@[simp] theorem finish_line : (s.finish st).line = s.line := rfl
@[simp] theorem finish_status : (s.finish st).status = st := rfl

@[simp] theorem load_params : (s.load prog start).params = s.params := rfl
@[simp] theorem load_portCmd : (s.load prog start).portCmd = s.portCmd := rfl
@[simp] theorem load_portA : (s.load prog start).portA = s.portA := rfl
@[simp] theorem load_portB : (s.load prog start).portB = s.portB := rfl
@[simp] theorem load_out : (s.load prog start).out = s.out := rfl
@[simp] theorem load_prog : (s.load prog start).prog = prog := rfl
@[simp] theorem load_vars : (s.load prog start).vars = start.foldl (fun vs kv => insertVar kv.1 kv.2 vs) [] := rfl
@[simp] theorem load_hostOvf : (s.load prog start).hostOvf = false := rfl
@[simp] theorem load_hostIll : (s.load prog start).hostIll = false := rfl
@[simp] theorem load_line : (s.load prog start).line = 0 := rfl
@[simp] theorem load_status : (s.load prog start).status = .running := rfl

end Updates

/-- A branch is a jump to one of two lines. -/
theorem branch_eq_goto (s : State) (cond : Bool) (n : Nat) :
    s.branch cond n = s.goto (if cond then n else s.line + 1) := by
  cases cond <;> rfl

end Sys2Proof.Machine
end

