-- ==== Sys2Proof/Laws/Exec.lean ====
section
/-! SUPPORT. What each instruction, a presented command, a command line and a step can do, said once. -/

namespace Sys2Proof.Machine

/-- Every instruction completes, and does nothing but drive the outputs. -/
theorem exec_eq (i : Instr) (s : State) : exec i s = .next (s.setOut (opOut s.params i s.portA s.portB)) := by
  cases i <;> rfl

/-- No legal command sets ILL. -/
theorem opOut_ill (p : Params) (i : Instr) (a b : Word) : (opOut p i a b).ill = false := by
  cases i <;> rfl

/-- ILL is 1 exactly when the command word is illegal. -/
theorem coreFn_ill (p : Params) (cmd : CmdWord) (a b : Word) : (coreFn p cmd a b).ill = !legal cmd := by
  unfold coreFn legal
  cases decode cmd with
  | error e => rfl
  | ok i => simpa using opOut_ill p i a b

/-- A presented command completes: the ports carry it and the outputs are CORE of it. -/
theorem present_eq (cmd : CmdWord) (a b : Word) (s : State) :
    present cmd a b s = .next ((s.drive cmd a b).setOut (coreFn s.params cmd a b)) := by
  unfold present coreFn
  cases decode cmd with
  | error e => rfl
  | ok i => exact exec_eq i (s.drive cmd a b)

/-- What a command line does: it faults on an unreadable source or an illegal word, and otherwise takes CORE's outputs. -/
theorem runCommand_cases (dst : Var) (cmd : CmdWord) (srcA : Src) (srcB : Option Src) (s : State) :
    (∃ f, s.readSrc srcA = .error f ∧ runCommand dst cmd srcA srcB s = .fault f) ∨
    (∃ a f, s.readSrc srcA = .ok a ∧ s.readSrcB srcB = .error f ∧ runCommand dst cmd srcA srcB s = .fault f) ∨
    (∃ a b, s.readSrc srcA = .ok a ∧ s.readSrcB srcB = .ok b ∧ legal cmd = false ∧
      runCommand dst cmd srcA srcB s = .fault (.illegalCommand cmd)) ∨
    (∃ a b, s.readSrc srcA = .ok a ∧ s.readSrcB srcB = .ok b ∧ legal cmd = true ∧
      runCommand dst cmd srcA srcB s = .next (((s.drive cmd a b).setOut (coreFn s.params cmd a b)).latch dst)) := by
  unfold runCommand
  cases ha : s.readSrc srcA with
  | error f => exact .inl ⟨f, rfl, rfl⟩
  | ok a =>
    cases hb : s.readSrcB srcB with
    | error f => exact .inr (.inl ⟨a, f, rfl, rfl, rfl⟩)
    | ok b =>
      simp only [present_eq, setOut_out, coreFn_ill]
      cases legal cmd with
      | false => exact .inr (.inr (.inl ⟨a, b, rfl, rfl, rfl, rfl⟩))
      | true => exact .inr (.inr (.inr ⟨a, b, rfl, rfl, rfl, rfl⟩))

/-- A source that cannot be read names a variable nothing has written. -/
theorem readSrc_error {s : State} {src : Src} {f : Fault} (h : s.readSrc src = .error f) :
    ∃ x, src = .var x ∧ s.readVar x = none ∧ f = .unwrittenVariable x := by
  cases src with
  | word w => simp [State.readSrc] at h
  | var x =>
    simp only [State.readSrc] at h
    cases hx : s.readVar x with
    | some w => simp [hx] at h
    | none => exact ⟨x, rfl, hx, by simpa [hx] using h.symm⟩

theorem readSrcB_error {s : State} {srcB : Option Src} {f : Fault} (h : s.readSrcB srcB = .error f) :
    ∃ x, srcB = some (.var x) ∧ s.readVar x = none ∧ f = .unwrittenVariable x := by
  cases srcB with
  | none => simp [State.readSrcB] at h
  | some src => obtain ⟨x, rfl, hx, hf⟩ := readSrc_error h; exact ⟨x, rfl, hx, hf⟩

/-- A compare and branch goes to one of two lines, or faults on a variable nothing has written. -/
theorem compareBranch_cases (x : Var) (target : Nat) (cond : Word → Bool) (s : State) :
    (s.readVar x = none ∧ compareBranch x target cond s = .fault (.unwrittenVariable x)) ∨
    (∃ v, s.readVar x = some v ∧
      compareBranch x target cond s = .next (s.goto (if cond v then target else s.line + 1))) := by
  unfold compareBranch
  cases hx : s.readVar x with
  | none => exact .inl ⟨rfl, rfl⟩
  | some v => exact .inr ⟨v, rfl, by simp only [branch_eq_goto]⟩

/-- A running program whose line index is on a line runs that line. -/
theorem step_eq_runLine {s : State} {l : Line} (hs : s.status = .running) (hl : s.prog[s.line]? = some l) :
    step s = runLine l s := by
  unfold step
  split
  · simp only [hl]
  · next h => cases hs.symm.trans h
  · next h => cases hs.symm.trans h

/-- A step that goes on runs the line at the line index. -/
theorem step_next {s s' : State} (h : step s = .next s') :
    s.status = .running ∧ ∃ l, s.prog[s.line]? = some l ∧ runLine l s = .next s' := by
  unfold step at h
  cases hs : s.status <;> simp only [hs] at h
  · cases hl : s.prog[s.line]? <;> simp only [hl] at h
    · cases h
    · exact ⟨rfl, _, rfl, h⟩
  · cases h
  · cases h

/-- A checked branch goes to a line of the program, taken or not. -/
theorem branchTarget_lt {m k n : Nat} {c : Bool} (h : (targetWf m n && goesOnWf m k) = true) :
    (if c then n else k + 1) < m := by
  simp only [Bool.and_eq_true, targetWf, goesOnWf, decide_eq_true_eq] at h
  cases c
  · exact h.2
  · exact h.1

/-- What a line that goes on leaves: a taken command, a written word, a jump, or an end. -/
theorem runLine_next {l : Line} {s s' : State} (h : runLine l s = .next s') :
    (∃ dst cmd srcA srcB a b, l = .command dst cmd srcA srcB ∧ s.readSrc srcA = .ok a ∧ s.readSrcB srcB = .ok b ∧
      legal cmd = true ∧ s' = ((s.drive cmd a b).setOut (coreFn s.params cmd a b)).latch dst) ∨
    (∃ dst w, l = .setWord dst w ∧ s' = (s.writeVar dst w).advance) ∨
    (∃ n, s' = s.goto n ∧ ∀ m, l.wf m s.line = true → n < m) ∨
    (∃ st, s' = s.finish st) := by
  cases l with
  | command dst cmd srcA srcB =>
    obtain ⟨f, -, hf⟩ | ⟨a, f, -, -, hf⟩ | ⟨a, b, -, -, -, hf⟩ | ⟨a, b, ha, hb, hl, hn⟩ :=
      runCommand_cases dst cmd srcA srcB s
    · simp [runLine, hf] at h
    · simp [runLine, hf] at h
    · simp [runLine, hf] at h
    · rw [runLine, hn] at h
      cases h
      exact .inl ⟨dst, cmd, srcA, srcB, a, b, rfl, ha, hb, hl, rfl⟩
  | setWord dst w => cases h; exact .inr (.inl ⟨dst, w, rfl, rfl⟩)
  | ifOvf want n =>
    rw [runLine, branch_eq_goto] at h
    cases h
    exact .inr (.inr (.inl ⟨_, rfl, fun m hm => branchTarget_lt hm⟩))
  | ifIll n =>
    rw [runLine, branch_eq_goto] at h
    cases h
    exact .inr (.inr (.inl ⟨_, rfl, fun m hm => branchTarget_lt hm⟩))
  | ifEq x w n =>
    obtain ⟨-, hf⟩ | ⟨v, -, hn⟩ := compareBranch_cases x n (fun v => v == w) s
    · simp [runLine, hf] at h
    · rw [runLine, hn] at h
      cases h
      exact .inr (.inr (.inl ⟨_, rfl, fun m hm => branchTarget_lt hm⟩))
  | ifNe x w n =>
    obtain ⟨-, hf⟩ | ⟨v, -, hn⟩ := compareBranch_cases x n (fun v => v != w) s
    · simp [runLine, hf] at h
    · rw [runLine, hn] at h
      cases h
      exact .inr (.inr (.inl ⟨_, rfl, fun m hm => branchTarget_lt hm⟩))
  | goto n => cases h; exact .inr (.inr (.inl ⟨_, rfl, fun m hm => by simpa [Line.wf, targetWf] using hm⟩))
  | halt => cases h; exact .inr (.inr (.inr ⟨_, rfl⟩))
  | fail m => cases h; exact .inr (.inr (.inr ⟨_, rfl⟩))

end Sys2Proof.Machine
end

