-- ==== Sys2Proof/Laws/Forms.lean ====
section
/-! SUPPORT. What a compound assignment can do, said once. -/

namespace Sys2Proof.Machine

/-- The core on a word that decodes to an instruction gives that instruction's outputs. -/
theorem coreFn_of_decode {p : Params} {cmd : CmdWord} {i : Instr} (h : decode cmd = .ok i) (a b : Word) :
    coreFn p cmd a b = opOut p i a b := by
  simp only [coreFn, h]

/-- A compound assignment on readable operands presents its command and sets the host bits; then it writes the held value, or,
where OVF = 1, ends the run (logs 15, 22, 23, 25). -/
theorem compoundAssign_eq {i : Instr} {x : Var} {rhs : Src} {s : State} {a b : Word} (ha : s.readVar x = some a)
    (hb : s.readSrc rhs = .ok b) :
    compoundAssign i x rhs s = .next
      (let s' := (s.drive (encode i) a b).setOut (coreFn s.params (encode i) a b)
       if s'.out.ovf then s'.latchBits.finish (.failed (Config.hardFailureMessage i))
       else (s'.writeVar x s'.out.y).latchBits) := by
  simp only [compoundAssign, ha, hb, present_eq]
  split <;> rfl

/-- Where a compound assignment goes on, it has read its variable and its operand. -/
theorem compoundAssign_next {i : Instr} {x : Var} {rhs : Src} {s t : State} (h : compoundAssign i x rhs s = .next t) :
    ∃ a b, s.readVar x = some a ∧ s.readSrc rhs = .ok b := by
  unfold compoundAssign at h
  split at h
  · cases h
  · cases h
  · next a b ha hb => exact ⟨a, b, ha, hb⟩

end Sys2Proof.Machine
end

