-- ==== Sys2Proof/Laws/PerInstr.lean ====
section
/-! SUPPORT. What holds of every instruction as syntax, one lemma per constructor: the fields of its command word and its row
of the opcode table. -/

namespace Sys2Proof

theorem rsvField_formatC (t : Ty) (op : BitVec 5) : rsvField (formatC t op) = 0 := by
  rcases t with ⟨_ | _, _ | _ | _ | _⟩ <;> revert op <;> decide

theorem opField_formatC (t : Ty) (op : BitVec 5) : opField (formatC t op) = op := by
  rcases t with ⟨_ | _, _ | _ | _ | _⟩ <;> revert op <;> decide

theorem widthOfWsel_formatC (t : Ty) (op : BitVec 5) : widthOfWsel (wselField (formatC t op)) = t.width := by
  rcases t with ⟨_ | _, _ | _ | _ | _⟩ <;> revert op <;> decide

theorem signednessOfSgn_formatC (t : Ty) (op : BitVec 5) : signednessOfSgn (sgnField (formatC t op)) = t.sgn := by
  rcases t with ⟨_ | _, _ | _ | _ | _⟩ <;> revert op <;> decide

/-- The fields of an instruction's command word are the reserved 0, its operation, its width and its signedness. -/
def Laws.EncodedFields.Statement (i : Instr) : Prop :=
  rsvField (encode i) = 0 ∧ opField (encode i) = i.op ∧ widthOfWsel (wselField (encode i)) = i.ty.width ∧
    signednessOfSgn (sgnField (encode i)) = i.ty.sgn

theorem Laws.EncodedFields.all (i : Instr) : Laws.EncodedFields.Statement i :=
  ⟨rsvField_formatC _ _, opField_formatC _ _, widthOfWsel_formatC _ _, signednessOfSgn_formatC _ _⟩

theorem Laws.EncodedFields.add (t : Ty) : Laws.EncodedFields.Statement (.add t) := Laws.EncodedFields.all _
theorem Laws.EncodedFields.sub (t : Ty) : Laws.EncodedFields.Statement (.sub t) := Laws.EncodedFields.all _
theorem Laws.EncodedFields.mul (t : Ty) : Laws.EncodedFields.Statement (.mul t) := Laws.EncodedFields.all _
theorem Laws.EncodedFields.shl (t : Ty) : Laws.EncodedFields.Statement (.shl t) := Laws.EncodedFields.all _
theorem Laws.EncodedFields.shr (t : Ty) : Laws.EncodedFields.Statement (.shr t) := Laws.EncodedFields.all _
theorem Laws.EncodedFields.rotl (t : Ty) : Laws.EncodedFields.Statement (.rotl t) := Laws.EncodedFields.all _
theorem Laws.EncodedFields.rotr (t : Ty) : Laws.EncodedFields.Statement (.rotr t) := Laws.EncodedFields.all _
theorem Laws.EncodedFields.cnto (t : Ty) : Laws.EncodedFields.Statement (.cnto t) := Laws.EncodedFields.all _
theorem Laws.EncodedFields.cntz (t : Ty) : Laws.EncodedFields.Statement (.cntz t) := Laws.EncodedFields.all _
theorem Laws.EncodedFields.clz (t : Ty) : Laws.EncodedFields.Statement (.clz t) := Laws.EncodedFields.all _
theorem Laws.EncodedFields.ctz (t : Ty) : Laws.EncodedFields.Statement (.ctz t) := Laws.EncodedFields.all _
theorem Laws.EncodedFields.clo (t : Ty) : Laws.EncodedFields.Statement (.clo t) := Laws.EncodedFields.all _
theorem Laws.EncodedFields.cto (t : Ty) : Laws.EncodedFields.Statement (.cto t) := Laws.EncodedFields.all _
theorem Laws.EncodedFields.rbit (t : Ty) : Laws.EncodedFields.Statement (.rbit t) := Laws.EncodedFields.all _
theorem Laws.EncodedFields.bswap (t : Ty) : Laws.EncodedFields.Statement (.bswap t) := Laws.EncodedFields.all _
theorem Laws.EncodedFields.tobe (t : Ty) : Laws.EncodedFields.Statement (.tobe t) := Laws.EncodedFields.all _
theorem Laws.EncodedFields.tole (t : Ty) : Laws.EncodedFields.Statement (.tole t) := Laws.EncodedFields.all _

/-- The opcode table has an instruction's OP value, and its row makes that instruction from its type. -/
def Laws.OpRow.Statement (i : Instr) : Prop := (opTable i.op).map (fun f => f i.ty) = some i

theorem Laws.OpRow.add (t : Ty) : Laws.OpRow.Statement (.add t) := rfl
theorem Laws.OpRow.sub (t : Ty) : Laws.OpRow.Statement (.sub t) := rfl
theorem Laws.OpRow.mul (t : Ty) : Laws.OpRow.Statement (.mul t) := rfl
theorem Laws.OpRow.shl (t : Ty) : Laws.OpRow.Statement (.shl t) := rfl
theorem Laws.OpRow.shr (t : Ty) : Laws.OpRow.Statement (.shr t) := rfl
theorem Laws.OpRow.rotl (t : Ty) : Laws.OpRow.Statement (.rotl t) := rfl
theorem Laws.OpRow.rotr (t : Ty) : Laws.OpRow.Statement (.rotr t) := rfl
theorem Laws.OpRow.cnto (t : Ty) : Laws.OpRow.Statement (.cnto t) := rfl
theorem Laws.OpRow.cntz (t : Ty) : Laws.OpRow.Statement (.cntz t) := rfl
theorem Laws.OpRow.clz (t : Ty) : Laws.OpRow.Statement (.clz t) := rfl
theorem Laws.OpRow.ctz (t : Ty) : Laws.OpRow.Statement (.ctz t) := rfl
theorem Laws.OpRow.clo (t : Ty) : Laws.OpRow.Statement (.clo t) := rfl
theorem Laws.OpRow.cto (t : Ty) : Laws.OpRow.Statement (.cto t) := rfl
theorem Laws.OpRow.rbit (t : Ty) : Laws.OpRow.Statement (.rbit t) := rfl
theorem Laws.OpRow.bswap (t : Ty) : Laws.OpRow.Statement (.bswap t) := rfl
theorem Laws.OpRow.tobe (t : Ty) : Laws.OpRow.Statement (.tobe t) := rfl
theorem Laws.OpRow.tole (t : Ty) : Laws.OpRow.Statement (.tole t) := rfl

end Sys2Proof
end

