-- ==== Sys2Proof/Laws/Values.lean ====
section
/-! SUPPORT. The values of patterns in the terms of the library's bit vectors, and the bits of a pattern given bit by bit. -/

namespace Sys2Proof.Machine

theorem uval_nonneg {n : Nat} (p : BitVec n) : 0 ≤ uval p := Int.natCast_nonneg _

theorem uval_lt {n : Nat} (p : BitVec n) : uval p < 2 ^ n := by
  have := p.isLt
  unfold uval
  exact_mod_cast this

theorem sval_eq_toInt {n : Nat} (p : BitVec n) : sval p = p.toInt := by
  rw [BitVec.toInt_eq_msb_cond, sval, uval]
  cases p.msb <;> simp

theorem enc_eq_ofInt (n : Nat) (x : Int) : enc n x = BitVec.ofInt n x := by
  apply BitVec.eq_of_toNat_eq
  rw [enc, BitVec.toNat_ofInt, BitVec.toNat_ofNat]
  have h0 : 0 ≤ x % 2 ^ n := Int.emod_nonneg _ (by positivity)
  have h1 : x % 2 ^ n < 2 ^ n := Int.emod_lt_of_pos _ (by positivity)
  have : (x % 2 ^ n).toNat < 2 ^ n := by zify; rw [Int.toNat_of_nonneg h0]; exact h1
  rw [Nat.mod_eq_of_lt this]
  norm_cast

theorem val_unsigned (w : Width) (p : Pattern w) : val { sgn := .unsigned, width := w } p = (p.toNat : Int) := rfl

theorem val_signed (w : Width) (p : Pattern w) : val { sgn := .signed, width := w } p = p.toInt := sval_eq_toInt p

theorem bits_pos (w : Width) : 0 < w.bits := by cases w <;> decide

theorem inRange_iff (t : Ty) (x : Int) : inRange t x = true ↔ minOf t ≤ x ∧ x ≤ maxOf t := by
  simp [inRange]

/-- Every value of a pattern is in the range of its type. -/
theorem val_inRange (t : Ty) (p : Pattern t.width) : inRange t (val t p) = true := by
  rcases t with ⟨_ | _, w⟩ <;> rw [inRange_iff]
  · have h0 := uval_nonneg p
    have h1 := uval_lt p
    exact ⟨h0, Int.le_sub_one_of_lt h1⟩
  · rw [val_signed]
    simp only [minOf, maxOf, Ty.bits]
    have h0 := BitVec.le_toInt p
    have h1 := BitVec.toInt_lt (x := p)
    constructor <;> push_cast at * <;> omega

theorem bitsValue_lt (f : Nat → Bool) (n : Nat) : bitsValue f n < 2 ^ n := by
  induction n with
  | zero => simp [bitsValue]
  | succ n ih =>
    have : (f n).toNat * 2 ^ n ≤ 2 ^ n := by cases f n <;> simp
    simp only [bitsValue, Nat.pow_succ]
    omega

theorem testBit_bitsValue (f : Nat → Bool) (n i : Nat) : (bitsValue f n).testBit i = (decide (i < n) && f i) := by
  induction n with
  | zero => simp [bitsValue]
  | succ n ih =>
    rw [bitsValue, Nat.add_comm, Nat.mul_comm, Nat.testBit_two_pow_mul_add _ (bitsValue_lt f n), ih]
    by_cases h : i < n
    · simp [h, Nat.lt_succ_of_lt h]
    · by_cases he : i = n
      · subst he; cases f i <;> simp
      · have hni : n < i := by omega
        have : ¬ i < n + 1 := by omega
        have h2 : i - n ≠ 0 := by omega
        have h1 : Nat.testBit 1 (i - n) = false := by
          rw [Nat.testBit_one_eq_true_iff_self_eq_zero.not.mpr h2 |> Bool.eq_false_iff.mpr]
        cases f n <;> simp [h, this, h1]

/-- The bits of a pattern given bit by bit. -/
@[simp] theorem getLsbD_patternOf (n : Nat) (f : Nat → Bool) (i : Nat) :
    (patternOf n f).getLsbD i = (decide (i < n) && f i) := by
  rw [patternOf, BitVec.getLsbD_ofNat, testBit_bitsValue, ← Bool.and_assoc, Bool.and_self]

end Sys2Proof.Machine
end

