-- ==== Sys2Proof/Laws/Vars.lean ====
section
/-! SUPPORT. The host variables: read after write, and that writing keeps the canonical form. -/

namespace Sys2Proof.Machine

@[simp] theorem lookupVar_insertVar_same (x : Nat) (w : Word) (vs : List (Nat × Word)) :
    lookupVar x (insertVar x w vs) = some w := by
  induction vs with
  | nil => simp [insertVar, lookupVar]
  | cons kv rest ih =>
    simp only [insertVar]
    split
    · simp [lookupVar]
    · split
      · simp [lookupVar]
      · next h => simp [lookupVar, h, ih]

theorem lookupVar_insertVar_other {x z : Nat} (h : z ≠ x) (w : Word) (vs : List (Nat × Word)) :
    lookupVar z (insertVar x w vs) = lookupVar z vs := by
  induction vs with
  | nil => simp [insertVar, lookupVar, h]
  | cons kv rest ih =>
    simp only [insertVar]
    split
    · simp [lookupVar, h]
    · split
      · next heq => simp [lookupVar, ← heq, h]
      · simp [lookupVar, ih]

theorem varsAbove_insertVar {lo x : Nat} {w : Word} {vs : List (Nat × Word)} (hx : lo < x)
    (h : varsAbove lo vs = true) : varsAbove lo (insertVar x w vs) = true := by
  induction vs generalizing lo with
  | nil => simp [insertVar, varsAbove, hx]
  | cons kv rest ih =>
    simp only [varsAbove, Bool.and_eq_true, decide_eq_true_eq] at h
    simp only [insertVar]
    split
    · next hlt => simp [varsAbove, hx, hlt, h.2]
    · split
      · next heq => simp [varsAbove, h.1, heq, h.2]
      · next hlt hne => simp [varsAbove, h.1, ih (by omega) h.2]

/-- Writing a host variable keeps the canonical form. -/
theorem varsWf_insertVar {vs : List (Nat × Word)} (x : Nat) (w : Word) (h : varsWf vs = true) :
    varsWf (insertVar x w vs) = true := by
  cases vs with
  | nil => simp [insertVar, varsWf, varsAbove]
  | cons kv rest =>
    simp only [varsWf] at h
    simp only [insertVar]
    split
    · next hlt => simp [varsWf, varsAbove, hlt, h]
    · split
      · next heq => simp [varsWf, heq, h]
      · exact varsAbove_insertVar (by omega) h

/-- Writing a list of variables leaves every other one. -/
theorem lookupVar_writes_other {x : Nat} {start : List (Nat × Word)} (h : x ∉ start.map (fun kv => kv.1))
    (vs : List (Nat × Word)) : lookupVar x (start.foldl (fun vs kv => insertVar kv.1 kv.2 vs) vs) = lookupVar x vs := by
  induction start generalizing vs with
  | nil => rfl
  | cons kv rest ih =>
    simp only [List.map_cons, List.mem_cons, not_or] at h
    rw [List.foldl_cons, ih h.2, lookupVar_insertVar_other h.1]

/-- Writing a list of variables keeps the canonical form. -/
theorem varsWf_writes {vs : List (Nat × Word)} (start : List (Nat × Word)) (h : varsWf vs = true) :
    varsWf (start.foldl (fun vs kv => insertVar kv.1 kv.2 vs) vs) = true := by
  induction start generalizing vs with
  | nil => exact h
  | cons kv rest ih => exact ih (varsWf_insertVar kv.1 kv.2 h)

end Sys2Proof.Machine
end

