-- ==== Sys2Proof/Tests/Slice0.lean ====
section
/-! SUPPORT. The model's own tests: the well-formedness checks refuse, words written out from the encoding decode, single
instructions give the rows of spec 95_test_vectors.md, and each statement with hypotheses has a witness for them. -/

namespace Sys2Proof.Tests

open Sys2Proof Sys2Proof.Machine

/-- A state of a little- or big-endian core with operands on its ports. -/
def onPorts (e : Endian) (a b : Word) : State :=
  { State.reset with params := { nativeEndian := e, ptrBits := .w32 }, portA := a, portB := b }

/-- The outputs of an outcome. -/
def outOf : Host.Outcome State Fault Refusal → Option Out
  | .next s => some s.out
  | .fault _ => none
  | .refused _ => none

/-- The fault of an outcome. -/
def faultOf : Host.Outcome State Fault Refusal → Option Fault
  | .next _ => none
  | .fault f => some f
  | .refused _ => none

/-- One instruction on operands, on a little-endian core. -/
def run (i : Instr) (a b : Word) : Option Out := outOf (exec i (onPorts .little a b))

/-- A state whose program is these lines, with start variables. -/
def withProgram (prog : List Line) (start : List (Nat × Word)) : State := (onPorts .little 0 0).load prog start

/-! ### Well-formedness (R62, R65, R70, R77): one ill-formed term for each check -/

theorem test_wf_refuses_illegal_word : commandWf 0x0007 none = false := by decide
theorem test_wf_refuses_missing_second_source : commandWf 0x0000 none = false := by decide
theorem test_wf_refuses_second_source_of_unary : commandWf 0x000A (some (.word 0)) = false := by decide
theorem test_wf_refuses_target_outside : targetWf 3 3 = false := by decide
theorem test_wf_refuses_running_past_the_end : goesOnWf 3 2 = false := by decide
theorem test_wf_refuses_goto_outside : programWf [.goto 1] = false := by decide
theorem test_wf_refuses_last_line_without_end : programWf [.setWord 0 1] = false := by decide
theorem test_wf_accepts : programWf [.command 0 0x0080 (.var 1) (some (.word 1)), .ifOvf true 3, .halt, .fail "overflow"] = true := by
  decide

/-! ### Decoding: each constructor's word, written out as RSV SGN WSEL OP from the tables of 30_encoding.md (R60 to R64) -/

theorem test_decode_add : decode 0b0000000000000000 = .ok (.add { sgn := .unsigned, width := .w8 }) := by
  decide
theorem test_decode_sub : decode 0b0000000010100001 = .ok (.sub { sgn := .signed, width := .w16 }) := by
  decide
theorem test_decode_mul : decode 0b0000000001000010 = .ok (.mul { sgn := .unsigned, width := .w32 }) := by
  decide
theorem test_decode_shl : decode 0b0000000011100011 = .ok (.shl { sgn := .signed, width := .w64 }) := by
  decide
theorem test_decode_shr : decode 0b0000000000000100 = .ok (.shr { sgn := .unsigned, width := .w8 }) := by
  decide
theorem test_decode_rotl : decode 0b0000000010100101 = .ok (.rotl { sgn := .signed, width := .w16 }) := by
  decide
theorem test_decode_rotr : decode 0b0000000001000110 = .ok (.rotr { sgn := .unsigned, width := .w32 }) := by
  decide
theorem test_decode_cnto : decode 0b0000000011101000 = .ok (.cnto { sgn := .signed, width := .w64 }) := by
  decide
theorem test_decode_cntz : decode 0b0000000000001001 = .ok (.cntz { sgn := .unsigned, width := .w8 }) := by
  decide
theorem test_decode_clz : decode 0b0000000010101010 = .ok (.clz { sgn := .signed, width := .w16 }) := by
  decide
theorem test_decode_ctz : decode 0b0000000001001011 = .ok (.ctz { sgn := .unsigned, width := .w32 }) := by
  decide
theorem test_decode_clo : decode 0b0000000011101100 = .ok (.clo { sgn := .signed, width := .w64 }) := by
  decide
theorem test_decode_cto : decode 0b0000000000001101 = .ok (.cto { sgn := .unsigned, width := .w8 }) := by
  decide
theorem test_decode_rbit : decode 0b0000000010110000 = .ok (.rbit { sgn := .signed, width := .w16 }) := by
  decide
theorem test_decode_bswap : decode 0b0000000001010001 = .ok (.bswap { sgn := .unsigned, width := .w32 }) := by
  decide
theorem test_decode_tobe : decode 0b0000000011110010 = .ok (.tobe { sgn := .signed, width := .w64 }) := by
  decide
theorem test_decode_tole : decode 0b0000000000010011 = .ok (.tole { sgn := .unsigned, width := .w8 }) := by
  decide
theorem test_decode_reserved_op : decode 0b0000000000011111 = .error .reservedOp := by decide
theorem test_decode_reserved_field : decode 0b1000000000000000 = .error .reservedField := by decide
theorem test_table_word : decodeTableWord 16 0x00A4 = some (.shr { sgn := .signed, width := .w16 }) := by decide

/-! ### Single instructions: rows of 95_test_vectors.md §2.1 to §2.4 -/

theorem test_add_below_min : run (.add (Claims.i .w8)) 0x80 0xFF = some { y := 0x7F, ovf := true, ill := false } := by decide
theorem test_add_ignores_upper_bits : run (.add (Claims.u .w8)) 0xFFFFFFFFFFFFFF7F 0xAB01 = some { y := 0x80, ovf := false, ill := false } := by decide
theorem test_sub_neg_min : run (.sub (Claims.i .w8)) 0x00 0x80 = some { y := 0x80, ovf := true, ill := false } := by decide
theorem test_sub_borrow : run (.sub (Claims.u .w64)) 0 0xFFFFFFFFFFFFFFFF = some { y := 1, ovf := true, ill := false } := by decide
theorem test_mul_min_exactly : run (.mul (Claims.i .w8)) 0xF0 0x08 = some { y := 0x80, ovf := false, ill := false } := by decide
theorem test_mul_min_by_minus_one : run (.mul (Claims.i .w64)) 0x8000000000000000 0xFFFFFFFFFFFFFFFF = some { y := 0x8000000000000000, ovf := true, ill := false } := by decide
theorem test_shl_sign_change_is_no_overflow : run (.shl (Claims.i .w8)) 0x40 1 = some { y := 0x80, ovf := false, ill := false } := by decide
theorem test_shl_largest_amount : run (.shl (Claims.u .w64)) 3 4294967295 = some { y := 0x8000000000000000, ovf := true, ill := false } := by decide
theorem test_shr_rounds_down : run (.shr (Claims.i .w8)) 0xF9 1 = some { y := 0xFC, ovf := false, ill := false } := by decide
theorem test_shr_amount_above_width : run (.shr (Claims.u .w32)) 0xFFFFFFFF 33 = some { y := 0x7FFFFFFF, ovf := true, ill := false } := by decide
theorem test_rotl_amount_above_width : run (.rotl (Claims.u .w8)) 0x81 9 = some { y := 0x03, ovf := false, ill := false } := by decide
theorem test_rotl_bytes : run (.rotl (Claims.u .w64)) 0x0123456789ABCDEF 8 = some { y := 0x23456789ABCDEF01, ovf := false, ill := false } := by decide
theorem test_rotr_amount_above_width : run (.rotr (Claims.u .w32)) 0x12345678 36 = some { y := 0x81234567, ovf := false, ill := false } := by decide
theorem test_rotr_16 : run (.rotr (Claims.u .w16)) 0x1234 4 = some { y := 0x4123, ovf := false, ill := false } := by decide
theorem test_cnto_all_ones : run (.cnto (Claims.u .w64)) 0xFFFFFFFFFFFFFFFF 0 = some { y := 0x40, ovf := false, ill := false } := by decide
theorem test_cnto_i8 : run (.cnto (Claims.i .w8)) 0xF0 0 = some { y := 4, ovf := false, ill := false } := by decide
theorem test_cntz_zero : run (.cntz (Claims.u .w8)) 0 0 = some { y := 8, ovf := false, ill := false } := by decide
theorem test_cntz_16 : run (.cntz (Claims.u .w16)) 0x0F00 0 = some { y := 0x0C, ovf := false, ill := false } := by decide
theorem test_clz_zero_below_upper_bits : run (.clz (Claims.u .w8)) 0xFFFFFFFFFFFFFF00 0 = some { y := 8, ovf := false, ill := false } := by decide
theorem test_clz_32 : run (.clz (Claims.u .w32)) 0x00010000 0 = some { y := 0x0F, ovf := false, ill := false } := by decide
theorem test_ctz_zero : run (.ctz (Claims.u .w64)) 0 0 = some { y := 0x40, ovf := false, ill := false } := by decide
theorem test_ctz_16 : run (.ctz (Claims.u .w16)) 0x0F00 0 = some { y := 8, ovf := false, ill := false } := by decide
theorem test_clo_i8 : run (.clo (Claims.i .w8)) 0xF0 0 = some { y := 4, ovf := false, ill := false } := by decide
theorem test_clo_all_ones : run (.clo (Claims.u .w8)) 0xFF 0 = some { y := 8, ovf := false, ill := false } := by decide
theorem test_cto_all_ones : run (.cto (Claims.u .w8)) 0xFF 0 = some { y := 8, ovf := false, ill := false } := by decide
theorem test_cto_64 : run (.cto (Claims.u .w64)) 0x8000000000000001 0 = some { y := 1, ovf := false, ill := false } := by decide
theorem test_rbit_32 : run (.rbit (Claims.u .w32)) 0x12345678 0 = some { y := 0x1E6A2C48, ovf := false, ill := false } := by decide
theorem test_rbit_64 : run (.rbit (Claims.u .w64)) 0x0123456789ABCDEF 0 = some { y := 0xF7B3D591E6A2C480, ovf := false, ill := false } := by decide
theorem test_bswap_32 : run (.bswap (Claims.u .w32)) 0x12345678 0 = some { y := 0x78563412, ovf := false, ill := false } := by decide
theorem test_bswap_one_byte : run (.bswap (Claims.u .w8)) 0xA5 0 = some { y := 0xA5, ovf := false, ill := false } := by decide
theorem test_tobe_little : run (.tobe (Claims.i .w16)) 0x8001 0 = some { y := 0x0180, ovf := false, ill := false } := by decide
theorem test_tole_little : run (.tole (Claims.u .w32)) 0x12345678 0 = some { y := 0x12345678, ovf := false, ill := false } := by decide
theorem test_tobe_big : outOf (exec (.tobe (Claims.u .w16)) (onPorts .big 0x1234 0)) =
    some { y := 0x1234, ovf := false, ill := false } := by decide
theorem test_tole_big : outOf (exec (.tole (Claims.u .w32)) (onPorts .big 0x12345678 0)) =
    some { y := 0x78563412, ovf := false, ill := false } := by decide

/-! ### The requester, the assembler and the forms -/

/-- 95_test_vectors.md §2.5: RSV ≠ 0 and a reserved OP are one fault of the step. -/
theorem test_illegal_word_faults : faultOf (step ((onPorts .little 1 2).withFetchWord 16 0xFFFF)) = some (.illegalCommand 0xFFFF) := by
  decide
theorem test_unwritten_variable_faults :
    faultOf (step (withProgram [.command 0 0x0080 (.var 5) (some (.word 1)), .halt] [])) = some (.unwrittenVariable 5) := by decide
/-- X1: add.i8 on 0x7F and 0x01, read from its text and assembled (CMD 0x0080). -/
theorem test_assemble_add : (readLine "s = add.i8 x, 1").map (assembleLine (onPorts .little 0 0).params) =
    some (.ok (.command (varNumber "s") 0x0080 (.var (varNumber "x")) (some (.word 1)))) := by decide
/-- §1: neg.i8 r, 0x80 assembles to CMD 0x0081 with A = 0x00 and B = 0x80. -/
theorem test_assemble_neg : (readCommand "neg.i8 r, 0x80").map (assembleCommand (onPorts .little 0 0).params) =
    some (.ok (.command (varNumber "r") 0x0081 (.word 0) (some (.word 0x80)))) := by decide
/-- P3 line 2 and P4 line 8. -/
theorem test_read_branch : readLine "if z != 0x12345678 goto 16" = some (.ifNe (varNumber "z") (.hex 0x12345678) 16) := by decide
theorem test_read_fail : readLine "fail \"abs overflow\"" = some (.fail "abs overflow") := by decide
/-- R72: 128 is not in the range of i8. -/
theorem test_literal_out_of_range : typedLiteral (Claims.i .w8) (.dec 128) = .error (.literalOutOfRange (.dec 128)) := by decide
theorem test_disassemble_legal : disassemble 0x0069 = "cntz.u64" := by decide
theorem test_disassemble_illegal : disassemble 0x00E7 = ".word 0x00E7" := by decide
/-- X2, X3, X4: the wrapping, saturating and overflowing forms of 127 + 1 in i8, and X1's checked form. -/
theorem test_forms_of_overflow : (formOf .wrapping default (.add (Claims.i .w8)) 0x7F 1, formOf .saturating default (.add (Claims.i .w8)) 0x7F 1,
    formOf .overflowing default (.add (Claims.i .w8)) 0x7F 1, formOf .checked default (.add (Claims.i .w8)) 0x7F 1) =
    (.next (.value (-128)), .next (.value 127), .next (.pair (-128) true), .next .absent) := by rfl
/-- X6: the byte sequences of 0x1234. -/
theorem test_byte_sequences : (seqBE .w16 0x1234, seqLE .w16 0x1234) = ([0x12, 0x34], [0x34, 0x12]) := by decide
/-- X7: MIN and MAX of i8. -/
theorem test_constants : (minOf (Claims.i .w8), maxOf (Claims.i .w8)) = (-128, 127) := by decide


/-! ### Witnesses: concrete values that meet the hypotheses of each statement that has some, one for each clause -/

/-- A program of one `add.i8` line over two variables, with both written, on its line 0. -/
def addLine : State := withProgram [.command 2 0x0080 (.var 0) (some (.var 1)), .halt] [(0, 0x7F), (1, 0x01)]

/-- The same with an illegal word. -/
def illegalLine : State := withProgram [.command 2 0x0007 (.var 0) (some (.var 1)), .halt] [(0, 0x7F), (1, 0x01)]

/-- One line, with variable 0 holding 5. -/
def oneLine (l : Line) : State := withProgram [l] [(0, 5)]

theorem witness_ValuesOfPatterns : 0 < 1 ∧ sval (1#1) = -1 := by decide
theorem witness_EncIsTheUniqueResidue : (minOf (Claims.i .w8) ≤ -128 ∧ -128 ≤ maxOf (Claims.i .w8)) ∧
    (minOf (Claims.u .w8) ≤ 255 ∧ 255 ≤ maxOf (Claims.u .w8)) := by decide
theorem witness_IllegalExactlyReservedWords : legal 0x0100 = false ∧ legal 0x00E0 = true := by decide
theorem witness_EveryPresentedCommandCompletes :
    (onPorts .big 1 2).params = (onPorts .big 3 4).params ∧ (onPorts .big 1 2) ≠ (onPorts .big 3 4) ∧
    (∃ t, present 0x0012 0x1234 0 (onPorts .big 1 2) = .next t) ∧ (∃ t, present 0x0012 0x1234 0 (onPorts .big 3 4) = .next t) ∧
    (Params.mk .big .w8).nativeEndian = (Params.mk .big .w64).nativeEndian :=
  ⟨by decide, by decide, ⟨_, rfl⟩, ⟨_, rfl⟩, rfl⟩
theorem witness_NativeOrderChangesOnlyEndianConversions :
    (0x0011 : CmdWord).toNat % 32 ≠ 0x12 ∧ (0x0011 : CmdWord).toNat % 32 ≠ 0x13 := by decide
theorem witness_EveryInstructionCompletesAndOnlyDrivesOutputs : (Claims.u .w8).bits ≤ 8 ∧
    Instr.clz (Claims.u .w8) ∈ [Instr.cnto (Claims.u .w8), .cntz (Claims.u .w8), .clz (Claims.u .w8)] := by decide
theorem witness_UnreadOperandBitsAreIgnored : (∀ k, k < 8 → (0xFF01 : Word).getLsbD k = (0x01 : Word).getLsbD k) ∧
    (∀ k, k < 32 → (0x100000009 : Word).getLsbD k = (0x9 : Word).getLsbD k) ∧ (Instr.add (Claims.u .w8)).opClass = .binary ∧
    (Instr.shl (Claims.u .w8)).opClass = .shift ∧ (Instr.clz (Claims.u .w8)).opClass = .unary := by decide
theorem witness_IllegalTakesPrecedence : (coreFn default 0x0007 1 2).ill = true ∧ (coreFn default 0x0080 1 2).ill = false := by
  decide
theorem witness_SignednessChangesOnlyArithmeticAndShr : decode 0x0080 = .ok (.add (Claims.i .w8)) ∧
    (0x0003 : CmdWord).toNat % 32 ∉ [0x00, 0x01, 0x02, 0x04] ∧ (0x0062 : CmdWord).toNat % 32 ∈ [0x00, 0x01, 0x02] := by decide
theorem witness_CommandsOfRequestersAreIndependent :
    [Request.mk 0 0x0080 1 2, .mk 1 0x0007 3 4].filter (fun r => r.requester == 0) =
      [Request.mk 0 0x0080 1 2].filter (fun r => r.requester == 0) ∧
    [Request.mk 0 0x0080 1 2, .mk 1 0x0007 3 4].Perm [.mk 1 0x0007 3 4, .mk 0 0x0080 1 2] := by decide
theorem witness_ArithmeticLaws : (coreFn default (encode (.add (Claims.u .w8))) 0xFE 1).ovf = false ∧
    (coreFn default (encode (.add (Claims.u .w8))) 0xFF 1).ovf = true := by decide
theorem witness_Shifts : 7 < (Claims.u .w8).bits ∧ (0 < 9 % 8) ∧ ¬ 1 < 9 % 8 ∧ 6 < 8 - 9 % 8 ∧ ¬ 7 < 8 - 9 % 8 := by decide
theorem witness_RotationLaws : 9 % Width.w8.bits ≠ 0 := by decide
theorem witness_LeadingAndTrailingZeros : (∀ i, i < 8 → (0xFF00 : Word).getLsbD i = false) ∧ (0x80 : Word).getLsbD 7 = true ∧
    (∀ i, 7 < i → i < 8 → (0x80 : Word).getLsbD i = false) ∧ (∀ i, i < 7 → (0x80 : Word).getLsbD i = false) :=
  ⟨by decide, by decide, fun i h1 h2 => absurd h2 (by omega), by decide⟩
theorem witness_LeadingAndTrailingOnes : (∀ i, i < 8 → (0xFF : Word).getLsbD i = true) ∧ (0x7F : Word).getLsbD 7 = false ∧
    (∀ i, 7 < i → i < 8 → (0x7F : Word).getLsbD i = true) ∧ (∀ i, i < 7 → (0x7F : Word).getLsbD i = true) :=
  ⟨by decide, by decide, fun i h1 h2 => absurd h2 (by omega), by decide⟩
theorem witness_CountLaws : (1#8 : Pattern .w8) ≠ 0 ∧ 7 < Width.w8.bits := by decide
theorem witness_ReversalsMoveBitsAndBytes : 63 < (Claims.u .w64).bits ∧ 7 < Width.w64.bytes := by decide
theorem witness_EndianConversionsFollowTheNativeOrder :
    (onPorts .big 1 0).params.nativeEndian = .big ∧ (onPorts .little 1 0).params.nativeEndian = .little := by decide
theorem witness_ReversalsAreInvolutions : Instr.tole (Claims.u .w8) ∈
    [Instr.rbit (Claims.u .w8), .bswap (Claims.u .w8), .tobe (Claims.u .w8), .tole (Claims.u .w8)] := by decide
theorem witness_ByteSequencesAreBijections : [0x12#8, 0x34#8].length = Width.w16.bytes := by decide
theorem witness_StepRunsTheDecodedInstruction : addLine.status = .running ∧
    addLine.prog[addLine.line]? = some (.command 2 0x0080 (.var 0) (some (.var 1))) ∧ decode 0x0080 = .ok (.add (Claims.i .w8)) ∧
    addLine.readSrc (.var 0) = .ok 0x7F ∧ addLine.readSrcB (some (.var 1)) = .ok 0x01 := ⟨rfl, rfl, rfl, rfl, rfl⟩
theorem witness_IllegalCommandFaultsTheStep : illegalLine.status = .running ∧
    illegalLine.prog[illegalLine.line]? = some (.command 2 0x0007 (.var 0) (some (.var 1))) ∧ legal 0x0007 = false ∧
    illegalLine.readSrc (.var 0) = .ok 0x7F ∧ illegalLine.readSrcB (some (.var 1)) = .ok 0x01 := ⟨rfl, rfl, rfl, rfl, rfl⟩
theorem witness_HostLinesHaveTheirEffects_lines (l : Line) : (oneLine l).status = .running ∧ (oneLine l).prog[(oneLine l).line]? = some l ∧
    (oneLine l).readVar 0 = some 5 ∧ (oneLine l).readVar 1 = none ∧ (oneLine l).readSrc (.var 0) = .ok 5 ∧
    (oneLine l).readSrcB none = .ok 0 ∧ legal 0x000A = true := ⟨rfl, rfl, rfl, rfl, rfl, rfl, rfl⟩
theorem witness_HostLinesHaveTheirEffects_outside : (withProgram [] []).status = .running ∧
    (withProgram [] []).prog.length ≤ (withProgram [] []).line := by decide
theorem witness_HostVariablesReadBack : (1 : Nat) ≠ 0 := by decide
theorem witness_PlacedWordRunsNext : decodeTableWord 16 0x0073 = some (.tole (Claims.u .w64)) := by decide
theorem witness_AssembledCommandsAreLegal : ∃ l, assembleCommand default
    { mnemonic := .neg, suffix := .isize, dst := 0, src1 := .var 1, src2 := none } = .ok l := ⟨_, rfl⟩
theorem witness_PointerTypesAssembleByPtrBits :
    ∃ c c' d d' : Command, (c = { c' with suffix := c.suffix } ∧ c.suffix = .usize ∧ c'.suffix = suffixOf (Claims.u .w8)) ∧
      (d = { d' with suffix := d.suffix } ∧ d.suffix = .isize ∧ d'.suffix = suffixOf (Claims.i .w64)) :=
  ⟨⟨.clz, .usize, 0, .var 1, none⟩, ⟨.clz, .u8, 0, .var 1, none⟩, ⟨.clz, .isize, 0, .var 1, none⟩, ⟨.clz, .i64, 0, .var 1, none⟩,
    by decide, by decide⟩
theorem witness_DisassemblyIsTheInverse : legal 0xFFFF = false := by decide
theorem witness_FormsSurfaceOneCommand : (coreFn default (encode (.shl (Claims.u .w8))) 1 7).ovf = false ∧
    (coreFn default (encode (.shl (Claims.u .w8))) 1 8).ovf = true := by decide
theorem witness_ArithmeticForms : exactOf (.add (Claims.i .w8)) 0x7E 1 = some 127 ∧ exactOf (.add (Claims.i .w8)) 0x7F 1 = some 128 ∧
    (minOf (Claims.i .w8) ≤ 127 ∧ 127 ≤ maxOf (Claims.i .w8)) ∧ ¬(minOf (Claims.i .w8) ≤ 128 ∧ 128 ≤ maxOf (Claims.i .w8)) := by decide
theorem witness_SaturatingForms : exactOf (.mul (Claims.i .w8)) 0xF0 9 = some (-144) ∧
    exactOf (.sub (Claims.u .w8)) 0 1 = some (-1) := by decide
theorem witness_SaturationSideFromOperands : (opOut default (.add (Claims.i .w8)) 0x7F 1).ovf = true ∧
    (opOut default (.add (Claims.i .w8)) 0x80 0xFF).ovf = true ∧ (opOut default (.add (Claims.u .w8)) 0xFF 1).ovf = true ∧
    (opOut default (.sub (Claims.u .w8)) 0 1).ovf = true ∧ (opOut default (.sub (Claims.i .w8)) 0 0x80).ovf = true ∧
    (opOut default (.sub (Claims.i .w8)) 0x80 1).ovf = true ∧ (opOut default (.mul (Claims.u .w8)) 0x10 0x10).ovf = true ∧
    (opOut default (.mul (Claims.i .w8)) 0xF0 9).ovf = true ∧ (opOut default (.mul (Claims.i .w8)) 0x80 0xFF).ovf = true := by decide
theorem witness_NegationForms : sval ((0x80 : Word).setWidth 8) = minOf (Claims.i .w8) ∧
    sval ((0x81 : Word).setWidth 8) ≠ minOf (Claims.i .w8) ∧ (0x100 : Word).setWidth 8 = 0#8 ∧ (0x01 : Word).setWidth 8 ≠ 0#8 := by decide
theorem witness_AbsoluteValueForms : sval ((0x8000 : Word).setWidth 16) = minOf (Claims.i .w16) ∧
    sval ((0x8001 : Word).setWidth 16) ≠ minOf (Claims.i .w16) := by decide
theorem witness_ShiftForms : (Claims.u .w8).bits ≤ (8 : Word).toNat % 2 ^ 32 ∧ (7 : Word).toNat % 2 ^ 32 < (Claims.u .w8).bits := by decide
theorem witness_OtherFormsNeverFail : Instr.rotl (Claims.u .w8) ∉
    [Instr.add (Claims.u .w8), .sub (Claims.u .w8), .mul (Claims.u .w8), .shl (Claims.u .w8), .shr (Claims.u .w8)] := by decide
theorem witness_CompoundAssignmentReplacesTheHeldValue : addLine.readVar 0 = some 0x7F ∧ addLine.readSrc (.word 0) = .ok 0 ∧
    formOf .default addLine.params (.add (Claims.i .w8)) 0x7F 0 = .next (.value 127) ∧
    (∃ msg, formOf .default addLine.params (.add (Claims.i .w8)) 0x7F 1 = .next (.hardFailure msg)) :=
  ⟨rfl, rfl, rfl, ⟨_, rfl⟩⟩
theorem witness_StepKeepsTheInvariant : addLine.Inv ∧ ∃ t, step addLine = .next t := ⟨⟨rfl, rfl, rfl, rfl⟩, ⟨_, rfl⟩⟩
theorem witness_NoStepChangesTheParameters : ∃ t, step addLine = .next t := ⟨_, rfl⟩
theorem witness_WellFormedProgramsStopOnlyWhereAllowed : addLine.ProgramOk := ⟨rfl, by decide⟩
theorem witness_EndedRunsHaveNoNextLine : (addLine.finish .done).status ≠ .running ∧
    (addLine.finish (.failed "overflow")).status ≠ .running := by decide
theorem witness_BackToBackCommandsNeedNoWait : ∃ s : State, s.status = .running ∧
    s.prog[s.line]? = some (.command 2 0x0080 (.var 0) (some (.word 1))) ∧
    s.prog[s.line + 1]? = some (.command 3 0x0081 (.var 2) (some (.var 2))) ∧ s.readSrc (.var 0) = .ok 5 ∧
    s.readSrcB (some (.word 1)) = .ok 1 ∧ legal 0x0080 = true ∧ legal 0x0081 = true ∧
    ({ s with portB := 1, vars := insertVar 2 (coreFn s.params 0x0080 5 1).y s.vars } : State).readSrc (.var 2) = .ok 6 :=
  ⟨withProgram [.command 2 0x0080 (.var 0) (some (.word 1)), .command 3 0x0081 (.var 2) (some (.var 2)), .halt] [(0, 5)],
    rfl, rfl, rfl, rfl, rfl, rfl, rfl, rfl⟩
theorem witness_BackToBackCommandsNeedNoWait_unary : ∃ s : State, s.status = .running ∧
    s.prog[s.line]? = some (.command 2 0x000A (.var 0) none) ∧ s.prog[s.line + 1]? = some (.command 2 0x000B (.var 2) none) ∧
    s.readSrc (.var 0) = .ok 0 ∧ s.readSrcB none = .ok 0 ∧ legal 0x000A = true ∧ legal 0x000B = true ∧
    ({ s with portB := 0, vars := insertVar 2 (coreFn s.params 0x000A 0 0).y s.vars } : State).readSrc (.var 2) = .ok 8 ∧
    ({ s with portB := 0, vars := insertVar 2 (coreFn s.params 0x000A 0 0).y s.vars } : State).readSrcB none = .ok 0 :=
  ⟨withProgram [.command 2 0x000A (.var 0) none, .command 2 0x000B (.var 2) none, .halt] [(0, 0)],
    rfl, rfl, rfl, rfl, rfl, rfl, rfl, rfl, rfl⟩
theorem witness_LiteralsAreRangeChecked_literals : (typedLiteral (Claims.i .w8) (.dec (-128))).isOk = true ∧
    (typedLiteral (Claims.i .w8) (.dec 128)).isOk = false ∧ (typedLiteral (Claims.i .w8) (.hex 0xFF)).isOk = true ∧
    (typedLiteral (Claims.i .w8) (.hex 0x100)).isOk = false ∧ (typedLiteral (Claims.u .w8) (.hex 0x100)).isOk = false ∧
    (amountLiteral (.hex 0xFFFFFFFF)).isOk = true ∧ (amountLiteral (.hex 0x100000000)).isOk = false := by decide
theorem witness_LiteralsAreRangeChecked_places : Mnemonic.shl ≠ .neg ∧
    (Mnemonic.shl.instr (Claims.u .w8)).opClass = .shift ∧ (Mnemonic.sub.instr (Claims.u .w8)).opClass = .binary ∧
    Claims.ReadsAs (typedLiteral (Claims.u .w8)) (.lit (.dec 255)) (.word 255) ∧
    typedLiteral (Claims.u .w8) (.dec 256) = .error (.literalOutOfRange (.dec 256)) ∧
    amountLiteral (.dec (-1)) = .error (.literalOutOfRange (.dec (-1))) :=
  ⟨by decide, rfl, rfl, ⟨255, rfl, rfl⟩, rfl, rfl⟩
theorem witness_WrittenProgramsRunLineByLine : ∃ (s : State) (src : List SourceLine),
    (∀ k, let t : State := { s with line := k }
      assemble t.params src = .ok t.prog ∧ t.status = .running ∧ t.line = k ∧ t.readVar 0 = some 5) ∧
    src[0]? = some (.setLit 0 (.dec (-1))) ∧ src[1]? = some (.ifEq 0 (.hex 0xFF) 0) ∧ src[2]? = some (.ifNe 0 (.dec 0) 1) :=
  ⟨withProgram [.setWord 0 0xFFFFFFFFFFFFFFFF, .ifEq 0 0xFF 0, .ifNe 0 0 1] [(0, 5)],
    [.setLit 0 (.dec (-1)), .ifEq 0 (.hex 0xFF) 0, .ifNe 0 (.dec 0) 1], fun _ => ⟨rfl, rfl, rfl, rfl⟩, rfl, rfl, rfl⟩
theorem witness_LoadedProgramsStartAtLineZero : (1 : Nat) ∉ [((0 : Nat), (5 : Word)), (0, 7)].map (fun kv => kv.1) ∧
    [((0 : Nat), (5 : Word)), (0, 7)] = [(0, 5)] ++ (0, 7) :: [] ∧ addLine.Inv := ⟨by decide, rfl, ⟨rfl, rfl, rfl, rfl⟩⟩

end Sys2Proof.Tests
end

section
/-! SUPPORT. The scope statements (spec 00_scope.md R4 to R9) and the run of written host programs (30_encoding.md R77): values
and encodings of patterns, what NATIVE_ENDIAN reaches, and the lines of an assembled program. -/

namespace Sys2Proof.Machine

/-! ### Patterns and values -/

theorem bitsValue_eq_sum (f : Nat → Bool) (n : Nat) : bitsValue f n = ∑ i ∈ Finset.range n, (f i).toNat * 2 ^ i := by
  induction n with
  | zero => rfl
  | succ n ih => rw [bitsValue, ih, Finset.sum_range_succ]

/-- A pattern is the one given by its own bits. -/
theorem patternOf_getLsbD {n : Nat} (p : BitVec n) : patternOf n p.getLsbD = p :=
  BitVec.eq_of_getLsbD_eq fun i hi => by rw [getLsbD_patternOf, decide_eq_true hi, Bool.true_and]

/-- The number that bits below `n` make fits `n` bits, so a pattern given bit by bit has it as its value. -/
theorem toNat_patternOf (n : Nat) (f : Nat → Bool) : (patternOf n f).toNat = bitsValue f n := by
  rw [patternOf, BitVec.toNat_ofNat, Nat.mod_eq_of_lt (bitsValue_lt f n)]

theorem uval_eq_sum {n : Nat} (p : BitVec n) : uval p = ∑ i ∈ Finset.range n, ((p.getLsbD i).toNat : Int) * 2 ^ i := by
  have h : p.toNat = ∑ i ∈ Finset.range n, (p.getLsbD i).toNat * 2 ^ i := by
    rw [← bitsValue_eq_sum, ← toNat_patternOf, patternOf_getLsbD]
  rw [uval, h]
  push_cast
  rfl

theorem uval_inj {n : Nat} {p q : BitVec n} : uval p = uval q ↔ p = q :=
  ⟨fun h => BitVec.eq_of_toNat_eq (Int.ofNat.inj h), fun h => h ▸ rfl⟩

@[simp] theorem uval_enc (n : Nat) (x : Int) : uval (enc n x) = x % 2 ^ n := by
  rw [enc_eq_ofInt, uval, BitVec.toNat_ofInt, Int.toNat_of_nonneg (Int.emod_nonneg _ (by positivity))]
  norm_cast

/-- An integer in the range of a type is the value of the pattern it is encoded as (R8, with R4 and R7). -/
theorem val_enc_of_inRange {t : Ty} {x : Int} (h : inRange t x = true) : val t (enc t.bits x) = x := by
  obtain ⟨hmin, hmax⟩ := (inRange_iff t x).1 h
  rcases t with ⟨_ | _, w⟩
  · calc uval (enc w.bits x) = x % 2 ^ w.bits := uval_enc _ _
      _ = x := Int.emod_eq_of_lt hmin (Int.lt_of_le_sub_one hmax)
  · rw [val_signed, enc_eq_ofInt]
    exact BitVec.toInt_ofInt_eq_self (bits_pos w) hmin (Int.lt_of_le_sub_one hmax)

/-- The integers in the range of a type are the values of its patterns. -/
theorem inRange_iff_exists_val (t : Ty) (x : Int) : inRange t x = true ↔ ∃ p : Pattern t.width, val t p = x :=
  ⟨fun h => ⟨enc t.bits x, val_enc_of_inRange h⟩, fun ⟨p, hp⟩ => hp ▸ val_inRange t p⟩

/-! ### What NATIVE_ENDIAN reaches -/

theorem toNat_opField (cmd : CmdWord) : (opField cmd).toNat = cmd.toNat % 32 := by
  simp [opField, BitVec.extractLsb'_toNat]

/-- An instruction the opcode table selects has the OP value it is selected by. -/
theorem op_of_opTable {f : BitVec 5} {op : Ty → Instr} (h : opTable f = some op) (t : Ty) : (op t).op = f := by
  unfold opTable at h
  split at h <;> cases h <;> exact BitVec.eq_of_toNat_eq (Eq.symm ‹_›)

/-- The OP field of a word that decodes is the OP value of its instruction. -/
theorem op_of_decode {cmd : CmdWord} {i : Instr} (h : decode cmd = .ok i) : i.op = opField cmd := by
  unfold decode at h
  split at h
  · cases h
  · split at h
    · cases h
    · next op hop => cases h; exact op_of_opTable hop _

/-- No operation but `tobe` (OP 0x12) and `tole` (OP 0x13) reads the parameters of the core. -/
theorem opOut_params_irrelevant (p q : Params) {i : Instr} (a b : Word) (hbe : i.op ≠ 0x12) (hle : i.op ≠ 0x13) :
    opOut p i a b = opOut q i a b := by
  cases i with
  | tobe t => exact absurd rfl hbe
  | tole t => exact absurd rfl hle
  | _ => rfl

/-! ### The lines of an assembled program -/

/-- An assembled program has the lines of the written one, each under its own number. -/
theorem assemble_getElem? {p : Params} {src : List SourceLine} {prog : List Line} (h : assemble p src = .ok prog)
    {k : Nat} {l : SourceLine} (hl : src[k]? = some l) : ∃ m, assembleLine p l = .ok m ∧ prog[k]? = some m := by
  obtain ⟨hlen, hget⟩ := List.forall₂_iff_get.1 (assemble_ok h)
  obtain ⟨hk, rfl⟩ := List.getElem?_eq_some_iff.1 hl
  exact ⟨prog[k], hget k hk (hlen ▸ hk), List.getElem?_eq_getElem _⟩

/-- Where the run of an assembled program stands on a written line, the step runs what that line assembles to. -/
theorem step_of_assembled {s : State} {src : List SourceLine} {l : SourceLine} {m : Line}
    (h : assemble s.params src = .ok s.prog) (hs : s.status = .running) (hl : src[s.line]? = some l)
    (hm : assembleLine s.params l = .ok m) : step s = runLine m s := by
  obtain ⟨m', hm', hprog⟩ := assemble_getElem? h hl
  cases hm.symm.trans hm'
  exact step_eq_runLine hs hprog

/-- A compare and branch over a written variable goes to its target or to the next line. -/
theorem compareBranch_of_read {s : State} {x : Var} {v : Word} (h : s.readVar x = some v) (target : Nat)
    (cond : Word → Bool) :
    compareBranch x target cond s = .next { s with line := if cond v then target else s.line + 1 } := by
  simp only [compareBranch, h, branch_eq_goto, State.goto]

theorem runLine_ifEq_of_read {s : State} {x : Var} {v : Word} (h : s.readVar x = some v) (w : Word) (target : Nat) :
    runLine (.ifEq x w target) s = .next { s with line := if v = w then target else s.line + 1 } := by
  simp only [runLine, compareBranch_of_read h, beq_iff_eq]

theorem runLine_ifNe_of_read {s : State} {x : Var} {v : Word} (h : s.readVar x = some v) (w : Word) (target : Nat) :
    runLine (.ifNe x w target) s = .next { s with line := if v ≠ w then target else s.line + 1 } := by
  simp only [runLine, compareBranch_of_read h, bne_iff_ne]

/-- The number a literal without a type stands for, decimal or hexadecimal, gives the word it is driven as (R77; log 12). -/
theorem hostWord_of_number {l : Literal} {n : Int} (h : l = .dec n ∨ ∃ k : Nat, l = .hex k ∧ n = k) :
    hostWord l = (enc 64 n).setWidth 64 := by
  obtain rfl | ⟨k, rfl, rfl⟩ := h <;> rfl

/-! ### The obligations -/

/-- Settles O1: a pattern is the one given by its bits, whose value is their weighted sum, and bit W-1 is its top bit. -/
theorem valuesOfPatterns : Obligations.ValuesOfPatterns := by
  refine ⟨fun n p => uval_eq_sum p, fun n p _ => ?_, fun w p => ⟨rfl, rfl⟩⟩
  rw [sval, BitVec.msb_eq_getLsbD_last]

/-- Settles O2: the value of enc_W(n) is the residue, a pattern is determined by its value, and the residue of an integer in
range is that integer. -/
theorem encIsTheUniqueResidue : Obligations.EncIsTheUniqueResidue :=
  ⟨fun n x p => by rw [← uval_inj, uval_enc],
    fun t x hmin hmax => val_enc_of_inRange ((inRange_iff t x).2 ⟨hmin, hmax⟩)⟩

/-- Settles O3: MIN, MAX and BITS by definition; an integer in range is the value of its encoding, and no value is out of
range. -/
theorem rangeOfAType : Obligations.RangeOfAType :=
  ⟨fun _ => ⟨rfl, rfl, rfl, rfl, rfl, rfl⟩, inRange_iff, inRange_iff_exists_val⟩

/-- Settles O8: a word decodes to `tobe` or `tole` only by its OP, and no other instruction reads the parameters. -/
theorem nativeOrderChangesOnlyEndianConversions : Obligations.NativeOrderChangesOnlyEndianConversions := by
  intro p q cmd a b hbe hle
  cases hd : decode cmd with
  | error e => simp only [coreFn, hd]
  | ok i =>
    rw [← toNat_opField, ← op_of_decode hd] at hbe hle
    rw [coreFn_of_decode hd, coreFn_of_decode hd]
    exact opOut_params_irrelevant p q a b (fun h => hbe (by rw [h]; rfl)) (fun h => hle (by rw [h]; rfl))

/-- Settles O59: a program assembles line by line, so the step at a written line runs what that line assembles to, with the
word of its literal. -/
theorem writtenProgramsRunLineByLine : Obligations.WrittenProgramsRunLineByLine := by
  refine ⟨fun p src prog h => ⟨(assemble_ok h).length_eq.symm, fun k l hl => assemble_getElem? h hl⟩, ?_⟩
  intro s src l n h hs hn
  rw [← hostWord_of_number hn]
  refine ⟨fun x hl => ?_, fun x m v hl hv => ?_, fun x m v hl hv => ?_⟩
  · exact step_of_assembled h hs hl rfl
  · exact (step_of_assembled h hs hl rfl).trans (runLine_ifEq_of_read hv _ _)
  · exact (step_of_assembled h hs hl rfl).trans (runLine_ifNe_of_read hv _ _)

end Sys2Proof.Machine
end

section
/-! SUPPORT. The state statements (spec 10_state.md R20 to R31): what a presented command does and what its outputs depend on,
when OVF and ILL are 1, and the invariant every step keeps. -/

namespace Sys2Proof.Machine

/-! ### Decoding: legal words, and the words of instructions -/

/-- Every instruction has its row of the opcode table (R61). -/
theorem opRow_all (i : Instr) : Laws.OpRow.Statement i := by
  cases i <;> rfl

/-- The word of an instruction decodes to it. -/
theorem decode_encode (i : Instr) : decode (encode i) = .ok i := by
  obtain ⟨hrsv, hop, hwidth, hsgn⟩ := Laws.EncodedFields.all i
  obtain ⟨f, hf, hfi⟩ := Option.map_eq_some_iff.1 (opRow_all i)
  simp only [decode, hrsv, hop, hwidth, hsgn, hf, ne_eq, not_true_eq_false, if_false]
  exact congrArg Except.ok hfi

/-- On the word of an instruction the core gives that instruction's outputs. -/
theorem coreFn_encode (p : Params) (i : Instr) (a b : Word) : coreFn p (encode i) a b = opOut p i a b :=
  coreFn_of_decode (decode_encode i) a b

theorem legal_of_decode {cmd : CmdWord} {i : Instr} (h : decode cmd = .ok i) : legal cmd = true := by
  simp only [legal, h]

theorem exists_decode_of_legal {cmd : CmdWord} (h : legal cmd = true) : ∃ i, decode cmd = .ok i := by
  unfold legal at h
  split at h
  · next i hi => exact ⟨i, hi⟩
  · cases h

/-- On an illegal word the core gives Y = 0, OVF = 0 and ILL = 1, whatever the operands are. -/
theorem coreFn_of_illegal {cmd : CmdWord} (h : legal cmd = false) (p : Params) (a b : Word) :
    coreFn p cmd a b = illegalOut := by
  unfold coreFn
  split
  · next i hi => cases h.symm.trans (legal_of_decode hi)
  · rfl

theorem coreFn_ill_iff (p : Params) (cmd : CmdWord) (a b : Word) : (coreFn p cmd a b).ill = true ↔ legal cmd = false := by
  rw [coreFn_ill, Bool.not_eq_true']

theorem decode_of_decodeTableWord {nbits w : Nat} {i : Instr} (h : decodeTableWord nbits w = some i) :
    decode (BitVec.ofNat 16 (w % 2 ^ nbits)) = .ok i := by
  unfold decodeTableWord at h
  split at h
  · cases hd : decode (BitVec.ofNat 16 (w % 2 ^ nbits)) with
    | error e => rw [hd] at h; cases h
    | ok j => rw [hd] at h; cases h; rfl
  · cases h

/-! ### What the outputs depend on -/

/-- Bits of a port word that agree below `n` make one `n`-bit pattern. -/
theorem setWidth_eq_of_getLsbD_eq {n : Nat} {a a' : Word} (h : ∀ k, k < n → a.getLsbD k = a'.getLsbD k) :
    a.setWidth n = a'.setWidth n :=
  BitVec.eq_of_getLsbD_eq fun k hk => by simp only [BitVec.getLsbD_setWidth, h k hk]

/-- An operation reads its first operand, and by its class the second operand, the amount or nothing of B (R24, R62). -/
theorem opOut_eq_of_operands (p : Params) {i : Instr} {a a' b b' : Word} (hA : operandA i.ty a = operandA i.ty a')
    (hB : i.opClass = .binary → operandB i.ty b = operandB i.ty b') (hS : i.opClass = .shift → amount b = amount b') :
    opOut p i a b = opOut p i a' b' := by
  cases i with
  | add t | sub t | mul t =>
    have hB := hB rfl
    simp only [Instr.ty] at hA hB
    simp only [opOut, addOut, subOut, mulOut, arith, exact, hA, hB]
  | shl t | shr t | rotl t | rotr t =>
    have hS := hS rfl
    simp only [Instr.ty] at hA
    simp only [opOut, shlOut, shrOut, rotlOut, rotrOut, maskedAmount, amountOverflow, hA, hS]
  | cnto t | cntz t | clz t | ctz t | clo t | cto t =>
    simp only [Instr.ty] at hA
    simp only [opOut, cntoOut, cntzOut, clzOut, ctzOut, cloOut, ctoOut, hA]
  | rbit t | bswap t | tobe t | tole t =>
    simp only [Instr.ty] at hA
    simp only [opOut, rbitOut, bswapOut, tobeOut, toleOut, hA]

/-- Of the parameters, an operation reads the native byte order alone. -/
theorem opOut_eq_of_nativeEndian {p q : Params} (h : p.nativeEndian = q.nativeEndian) (i : Instr) (a b : Word) :
    opOut p i a b = opOut q i a b := by
  cases i with
  | tobe t | tole t => simp only [opOut, tobeOut, toleOut, h]
  | _ => rfl

theorem coreFn_eq_of_nativeEndian {p q : Params} (h : p.nativeEndian = q.nativeEndian) (cmd : CmdWord) (a b : Word) :
    coreFn p cmd a b = coreFn q cmd a b := by
  cases hd : decode cmd with
  | error e => simp only [coreFn, hd]
  | ok i => rw [coreFn_of_decode hd, coreFn_of_decode hd, opOut_eq_of_nativeEndian h]

/-! ### Counts are at most W -/

theorem countTrue_le (f : Nat → Bool) (n : Nat) : countTrue f n ≤ n := by
  induction n with
  | zero => exact Nat.le_refl 0
  | succ n ih => exact Nat.add_le_add ih (Bool.toNat_le _)

theorem lowestTrue_lt {f : Nat → Bool} {n i : Nat} (h : lowestTrue f n = some i) : i < n := by
  induction n with
  | zero => cases h
  | succ n ih =>
    unfold lowestTrue at h
    split at h
    · next j hj => cases h; exact Nat.lt_succ_of_lt (ih hj)
    · split at h
      · cases h; exact Nat.lt_succ_self _
      · cases h

theorem leadingZeros_le {n : Nat} (a : BitVec n) : leadingZeros a ≤ n := by
  unfold leadingZeros
  split <;> omega

theorem trailingZeros_le {n : Nat} (a : BitVec n) : trailingZeros a ≤ n := by
  unfold trailingZeros
  split
  · exact Nat.le_refl n
  · next i hi => exact (lowestTrue_lt hi).le

/-- The encoding of a count is at most every bound of the count. -/
theorem toNat_enc_le {n c m : Nat} (h : c ≤ m) : (enc n c).toNat ≤ m := by
  have hc : (enc n c).toNat = c % 2 ^ n := by
    have hu := uval_enc n c
    rw [uval] at hu
    exact_mod_cast hu
  calc (enc n c).toNat = c % 2 ^ n := hc
    _ ≤ c := Nat.mod_le _ _
    _ ≤ m := h

/-- Every operation ends by placing a W-bit pattern with ILL = 0, and the pattern of a count is at most W (R25). -/
theorem opOut_eq_result (p : Params) (i : Instr) (a b : Word) :
    ∃ (r : Pattern i.ty.width) (ovf : Bool), opOut p i a b = result r ovf ∧
      (i ∈ [.cnto i.ty, .cntz i.ty, .clz i.ty, .ctz i.ty, .clo i.ty, .cto i.ty] → r.toNat ≤ i.ty.bits) := by
  cases i with
  | cnto t | cntz t => exact ⟨_, _, rfl, fun _ => toNat_enc_le (countTrue_le _ _)⟩
  | clz t | clo t => exact ⟨_, _, rfl, fun _ => toNat_enc_le (leadingZeros_le _)⟩
  | ctz t | cto t => exact ⟨_, _, rfl, fun _ => toNat_enc_le (trailingZeros_le _)⟩
  | _ => exact ⟨_, _, rfl, fun h => by simp at h⟩

/-! ### When OVF is 1 -/

theorem rangeOverflow_iff (t : Ty) (x : Int) : rangeOverflow t x = true ↔ ¬(minOf t ≤ x ∧ x ≤ maxOf t) := by
  rw [← inRange_iff, rangeOverflow, Bool.not_eq_true', Bool.not_eq_true]

theorem amountOverflow_iff (t : Ty) (b : Word) : amountOverflow t b = true ↔ t.bits ≤ b.toNat % 2 ^ 32 := by
  rw [amountOverflow, decide_eq_true_iff, amount, BitVec.toNat_setWidth]

/-! ### Command lines -/

@[simp] theorem latch_eq_goto (s : State) (dst : Var) :
    s.latch dst = (s.writeVar dst s.out.y).latchBits.goto (s.line + 1) := rfl

@[simp] theorem readVar_goto (s : State) (n : Nat) (x : Var) : (s.goto n).readVar x = s.readVar x := rfl

@[simp] theorem readVar_latchBits (s : State) (x : Var) : s.latchBits.readVar x = s.readVar x := rfl

@[simp] theorem readVar_writeVar_same (s : State) (x : Var) (w : Word) : (s.writeVar x w).readVar x = some w :=
  lookupVar_insertVar_same x w s.vars

/-- A command line with readable sources and a legal word takes CORE's outputs. -/
theorem runCommand_of_legal {cmd : CmdWord} {srcA : Src} {srcB : Option Src} {s : State} {a b : Word}
    (ha : s.readSrc srcA = .ok a) (hb : s.readSrcB srcB = .ok b) (hl : legal cmd = true) (dst : Var) :
    runCommand dst cmd srcA srcB s = .next (((s.drive cmd a b).setOut (coreFn s.params cmd a b)).latch dst) := by
  have hill : (coreFn s.params cmd a b).ill = false := by rw [coreFn_ill, hl]; rfl
  simp only [runCommand, ha, hb, present_eq, setOut_out, hill]
  rfl

theorem getElem?_setLine (l : Line) (n : Nat) (prog : List Line) : (setLine l n prog)[n]? = some l := by
  induction n generalizing prog with
  | zero => cases prog <;> rfl
  | succ n ih => cases prog <;> exact ih _

/-- A placed word is what the next step presents, with the operands the ports carry (log 19). -/
theorem step_withFetchWord (s : State) (nbits w : Nat) :
    step (s.withFetchWord nbits w) = runCommand 0 (BitVec.ofNat 16 (w % 2 ^ nbits)) (.word s.portA)
      (some (.word s.portB)) (s.withFetchWord nbits w) :=
  step_eq_runLine (l := s.fetchLine (BitVec.ofNat 16 (w % 2 ^ nbits))) rfl (getElem?_setLine _ _ _)

/-! ### What each update keeps of the invariant -/

section Invariant
variable {s : State}

theorem State.Inv.goto (h : s.Inv) (n : Nat) : (s.goto n).Inv := ⟨h.vars_wf, h.outputs, h.ill, h.hostIll⟩

theorem State.Inv.finish (h : s.Inv) (st : Status) : (s.finish st).Inv := ⟨h.vars_wf, h.outputs, h.ill, h.hostIll⟩

theorem State.Inv.writeVar (h : s.Inv) (x : Var) (w : Word) : (s.writeVar x w).Inv :=
  ⟨varsWf_insertVar x w h.vars_wf, h.outputs, h.ill, h.hostIll⟩

theorem State.Inv.latchBits (h : s.Inv) : s.latchBits.Inv := ⟨h.vars_wf, h.outputs, h.ill, h.ill⟩

theorem State.Inv.latch (h : s.Inv) (dst : Var) : (s.latch dst).Inv := ((h.writeVar dst _).latchBits).goto _

/-- Presenting a legal command drives CORE of the new inputs, with ILL = 0. -/
theorem State.Inv.presented (h : s.Inv) {cmd : CmdWord} (hl : legal cmd = true) (a b : Word) :
    ((s.drive cmd a b).setOut (coreFn s.params cmd a b)).Inv where
  vars_wf := h.vars_wf
  outputs := rfl
  ill := by rw [setOut_out, coreFn_ill, hl]; rfl
  hostIll := h.hostIll

end Invariant

/-! ### The obligations -/

/-- Settles O53: a step takes the outputs of a legal command, writes a variable, jumps or ends the run, and each of these
keeps the invariant. -/
theorem stepKeepsTheInvariant : Obligations.StepKeepsTheInvariant := by
  intro s s' hs hstep
  obtain ⟨-, l, -, hrun⟩ := step_next hstep
  obtain ⟨dst, cmd, srcA, srcB, a, b, -, -, -, hl, rfl⟩ | ⟨dst, w, -, rfl⟩ | ⟨n, rfl, -⟩ | ⟨st, rfl⟩ := runLine_next hrun
  · exact (hs.presented hl a b).latch dst
  · exact (hs.writeVar dst w).goto _
  · exact hs.goto n
  · exact hs.finish st

/-- Settles O7: presenting a command drives the ports and CORE's outputs, which depend on the inputs and the native byte order
alone. -/
theorem everyPresentedCommandCompletes : Obligations.EveryPresentedCommandCompletes := by
  refine ⟨fun s cmd a b => present_eq cmd a b s, fun s s' t t' cmd a b hp ht ht' => ?_,
    fun p q cmd a b h => coreFn_eq_of_nativeEndian h cmd a b⟩
  rw [present_eq] at ht ht'
  cases ht
  cases ht'
  rw [setOut_out, setOut_out, hp]

/-- Settles O9: every instruction drives the outputs of its operation, which place a W-bit pattern. -/
theorem everyInstructionCompletesAndOnlyDrivesOutputs : Obligations.EveryInstructionCompletesAndOnlyDrivesOutputs := by
  intro i s
  obtain ⟨r, ovf, hout, hcount⟩ := opOut_eq_result s.params i s.portA s.portB
  refine ⟨r, ovf, ?_, fun k hk => ?_, hcount⟩
  · rw [exec_eq, hout]
    rfl
  · rw [BitVec.getLsbD_setWidth, BitVec.getLsbD_of_ge r k hk, Bool.and_false]

/-- Settles O10: words that agree on the bits read give the same operands, and an operation reads its operands alone. -/
theorem unreadOperandBitsAreIgnored : Obligations.UnreadOperandBitsAreIgnored := by
  intro p i a a' b b' hA hB hS
  rw [coreFn_encode, coreFn_encode]
  exact opOut_eq_of_operands p (setWidth_eq_of_getLsbD_eq hA) (fun hc => setWidth_eq_of_getLsbD_eq (hB hc))
    (fun hc => congrArg BitVec.toNat (setWidth_eq_of_getLsbD_eq (hS hc)))

/-- Settles O11: of the operations, add, sub and mul take OVF from the range, shl and shr from the amount, and the others
drive 0, as does an illegal command. -/
theorem ovfExactlyWhenTheOperationOverflows : Obligations.OvfExactlyWhenTheOperationOverflows := by
  refine ⟨fun s o cmd a b => ?_, fun p cmd a b => ?_⟩
  · rw [present_eq, present_eq]
    rfl
  cases hd : decode cmd with
  | error e => simp [coreFn, hd, illegalOut]
  | ok i =>
    rw [coreFn_of_decode hd]
    cases i with
      simp only [Except.ok.injEq, Instr.add.injEq, Instr.sub.injEq, Instr.mul.injEq, Instr.shl.injEq, Instr.shr.injEq,
        reduceCtorEq, false_and, or_false, false_or, exists_eq_left', exists_false]
    | add t => exact rangeOverflow_iff t (exact (· + ·) t a b)
    | sub t => exact rangeOverflow_iff t (exact (· - ·) t a b)
    | mul t => exact rangeOverflow_iff t (exact (· * ·) t a b)
    | shl t | shr t => exact amountOverflow_iff t b
    | _ => exact iff_of_false Bool.false_ne_true id

/-- Settles O12: ILL is 1 exactly for an illegal word, whose outputs are fixed; a legal word has its operation's outputs. -/
theorem illegalTakesPrecedence : Obligations.IllegalTakesPrecedence := by
  have hill : ∀ p cmd a b, (coreFn p cmd a b).ill = true → coreFn p cmd a b = illegalOut :=
    fun p cmd a b h => coreFn_of_illegal ((coreFn_ill_iff p cmd a b).1 h) p a b
  refine ⟨coreFn_ill_iff, fun p cmd a b h => ?_, fun p cmd a b h => ?_, fun p cmd a b ⟨h, hovf⟩ => ?_⟩
  · rw [hill p cmd a b h]
    exact ⟨rfl, rfl⟩
  · rw [coreFn_ill, Bool.not_eq_false'] at h
    obtain ⟨i, hi⟩ := exists_decode_of_legal h
    exact ⟨i, hi, coreFn_of_decode hi a b⟩
  · rw [hill p cmd a b h] at hovf
    cases hovf

/-- Settles O55: nothing a line does to the state touches the parameters or the program. -/
theorem noStepChangesTheParameters : Obligations.NoStepChangesTheParameters := by
  intro s s' hstep
  obtain ⟨-, l, -, hrun⟩ := step_next hstep
  obtain ⟨dst, cmd, srcA, srcB, a, b, -, -, -, -, rfl⟩ | ⟨dst, w, -, rfl⟩ | ⟨n, rfl, -⟩ | ⟨st, rfl⟩ := runLine_next hrun
  all_goals exact ⟨rfl, rfl⟩

/-- Settles O38: the placed line is a command over two driven words, so it can be read, and a word that decodes is legal. -/
theorem placedWordRunsNext : Obligations.PlacedWordRunsNext := by
  intro s nbits w i h
  have hd := decode_of_decodeTableWord h
  refine ⟨_, (step_withFetchWord s nbits w).trans (runCommand_of_legal rfl rfl (legal_of_decode hd) 0), ?_, ?_, rfl⟩
  · rw [coreFn_encode, ← coreFn_of_decode hd]
    rfl
  · rw [latch_eq_goto, readVar_goto, readVar_latchBits, readVar_writeVar_same]
    rfl

/-- Settles O54: at reset the outputs are CORE(0, 0, 0), that is 0 + 0 in u8, and no program or variable is there. -/
theorem resetMeetsTheInvariant : Obligations.ResetMeetsTheInvariant :=
  ⟨⟨rfl, rfl, rfl, rfl⟩, rfl, rfl, fun _ => rfl, rfl⟩

end Sys2Proof.Machine
end

section
/-! SUPPORT. The memory statements (spec 20_memory.md R42 to R44, R50 and R51; 43_bitorder_bytes.md R162): what several
requesters read from one core, and byte sequences of patterns as bijections. -/

namespace Sys2Proof.Machine

/-! ### Several requesters -/

/-- Each command served gives CORE of its own inputs, whatever was served before it. -/
theorem serve_eq_map (rs : List Request) (s : State) :
    serve rs s = rs.map fun r => (r.requester, coreFn s.params r.cmd r.a r.b) := by
  induction rs generalizing s with
  | nil => rfl
  | cons r rest ih =>
    simp only [serve, present_eq, setOut_out, List.map_cons, ih, setOut_params, drive_params]

/-! ### Bytes of a pattern -/

theorem bits_eq_mul_bytes (w : Width) : w.bits = 8 * w.bytes := by
  cases w <;> rfl

theorem getLsbD_byteOf {n : Nat} (k : Nat) (p : BitVec n) {j : Nat} (hj : j < 8) :
    (byteOf k p).getLsbD j = p.getLsbD (8 * k + j) := by
  rw [byteOf, BitVec.getLsbD_extractLsb', decide_eq_true hj, Bool.true_and]

/-- Byte `k` of a pattern given bit by bit is made of the bits 8k to 8k+7. -/
theorem byteOf_patternOf {w : Width} {k : Nat} (hk : k < w.bytes) {f : Nat → Bool} {b : Byte}
    (h : ∀ j, j < 8 → f (8 * k + j) = b.getLsbD j) : byteOf k (patternOf w.bits f) = b := by
  refine BitVec.eq_of_getLsbD_eq fun j hj => ?_
  have hlt : 8 * k + j < w.bits := by have := bits_eq_mul_bytes w; omega
  rw [getLsbD_byteOf k _ hj, getLsbD_patternOf, decide_eq_true hlt, Bool.true_and, h j hj]

/-- Where bit j of byte k stands in a sequence of bytes. -/
theorem mul_add_div_mod_eight {j : Nat} (k : Nat) (hj : j < 8) : (8 * k + j) / 8 = k ∧ (8 * k + j) % 8 = j := by
  omega

/-- `bswap` exchanges byte k and byte BYTES-1-k (R161). -/
theorem byteOf_bswapValue {w : Width} {k : Nat} (hk : k < w.bytes) (p : Pattern w) :
    byteOf k (bswapValue w p) = byteOf (w.bytes - 1 - k) p := by
  refine byteOf_patternOf hk fun j hj => ?_
  obtain ⟨hdiv, hmod⟩ := mul_add_div_mod_eight k hj
  rw [hdiv, hmod, getLsbD_byteOf _ p hj]

theorem byteOf_ofSeqLE {w : Width} {k : Nat} (hk : k < w.bytes) (l : List Byte) :
    byteOf k (ofSeqLE w l) = l.getD k 0 := by
  refine byteOf_patternOf hk fun j hj => ?_
  obtain ⟨hdiv, hmod⟩ := mul_add_div_mod_eight k hj
  rw [hdiv, hmod]

/-! ### Byte sequences -/

section Sequences
variable (w : Width) (p : Pattern w)

@[simp] theorem length_seqLE : (seqLE w p).length = w.bytes := by
  rw [seqLE, List.length_map, List.length_range]

@[simp] theorem length_seqBE : (seqBE w p).length = w.bytes := by
  rw [seqBE, List.length_map, List.length_range]

@[simp] theorem getElem_seqLE {k : Nat} (hk : k < (seqLE w p).length) : (seqLE w p)[k] = byteOf k p := by
  simp only [seqLE, List.getElem_map, List.getElem_range]

@[simp] theorem getElem_seqBE {k : Nat} (hk : k < (seqBE w p).length) :
    (seqBE w p)[k] = byteOf (w.bytes - 1 - k) p := by
  simp only [seqBE, List.getElem_map, List.getElem_range]

/-- The little-endian sequence reversed is the big-endian one (R44, the other way round). -/
theorem reverse_seqLE : (seqLE w p).reverse = seqBE w p :=
  List.ext_getElem (by simp) fun k _ _ => by simp

theorem reverse_seqBE : (seqBE w p).reverse = seqLE w p := by
  rw [← reverse_seqLE, List.reverse_reverse]

theorem seqLE_bswapValue : seqLE w (bswapValue w p) = seqBE w p :=
  List.map_congr_left fun _ hk => byteOf_bswapValue (List.mem_range.1 hk) p

theorem seqBE_bswapValue : seqBE w (bswapValue w p) = seqLE w p := by
  rw [← reverse_seqLE, seqLE_bswapValue, reverse_seqBE]

/-- Bit i of a pattern is bit i mod 8 of the byte i / 8 of its little-endian sequence. -/
theorem ofSeqLE_seqLE : ofSeqLE w (seqLE w p) = p := by
  refine BitVec.eq_of_getLsbD_eq fun i hi => ?_
  have hk : i / 8 < (seqLE w p).length := by rw [length_seqLE]; have := bits_eq_mul_bytes w; omega
  rw [ofSeqLE, getLsbD_patternOf, decide_eq_true hi, Bool.true_and, List.getD_eq_getElem _ _ hk, getElem_seqLE,
    getLsbD_byteOf _ p (Nat.mod_lt i (by decide)), Nat.div_add_mod]

theorem seqLE_ofSeqLE {l : List Byte} (hl : l.length = w.bytes) : seqLE w (ofSeqLE w l) = l := by
  refine List.ext_getElem (by rw [length_seqLE, hl]) fun k _ hk => ?_
  rw [getElem_seqLE, byteOf_ofSeqLE (hl ▸ hk), List.getD_eq_getElem _ _ hk]

/-- To read a big-endian sequence is to read it reversed as a little-endian one. -/
theorem ofSeqBE_eq_ofSeqLE_reverse {l : List Byte} (hl : l.length = w.bytes) : ofSeqBE w l = ofSeqLE w l.reverse := by
  refine BitVec.eq_of_getLsbD_eq fun i hi => ?_
  have hk : i / 8 < l.length := by have := bits_eq_mul_bytes w; omega
  simp only [ofSeqBE, ofSeqLE, getLsbD_patternOf, List.getD_eq_getElem?_getD, List.getElem?_reverse hk, hl]

theorem ofSeqBE_seqBE : ofSeqBE w (seqBE w p) = p := by
  rw [ofSeqBE_eq_ofSeqLE_reverse w (length_seqBE w p), reverse_seqBE, ofSeqLE_seqLE]

theorem seqBE_ofSeqBE {l : List Byte} (hl : l.length = w.bytes) : seqBE w (ofSeqBE w l) = l := by
  rw [ofSeqBE_eq_ofSeqLE_reverse w hl, ← reverse_seqLE, seqLE_ofSeqLE w (List.length_reverse.trans hl), List.reverse_reverse]

theorem ofSeqNE_seqNE (e : Endian) : ofSeqNE e w (seqNE e w p) = p := by
  cases e with
  | little => exact ofSeqLE_seqLE w p
  | big => exact ofSeqBE_seqBE w p

theorem seqNE_ofSeqNE {l : List Byte} (hl : l.length = w.bytes) (e : Endian) : seqNE e w (ofSeqNE e w l) = l := by
  cases e with
  | little => exact seqLE_ofSeqLE w hl
  | big => exact seqBE_ofSeqBE w hl

end Sequences

/-! ### The obligations -/

/-- Settles O14: what is read is the list of requests with CORE of each one's own inputs, so it is selected by requester and
reordered as the requests are. -/
theorem commandsOfRequestersAreIndependent : Obligations.CommandsOfRequestersAreIndependent := by
  refine ⟨fun s rs => serve_eq_map rs s, fun s s' rs rs' n hp h => ?_, fun s rs rs' h => ?_⟩
  · have hfilter : ∀ (l : List Request) (t : State), (serve l t).filter (fun o => o.1 == n) =
        (l.filter fun r => r.requester == n).map fun r => (r.requester, coreFn t.params r.cmd r.a r.b) :=
      fun l t => by rw [serve_eq_map, List.filter_map]; rfl
    rw [hfilter, hfilter, h, hp]
  · rw [serve_eq_map, serve_eq_map]
    exact h.map _

/-- Settles O33: a byte sequence and its `from` function move the same bits, big-endian is little-endian reversed, and `bswap`
exchanges byte k and byte BYTES-1-k. -/
theorem byteSequencesAreBijections : Obligations.ByteSequencesAreBijections :=
  fun w => ⟨fun p => ⟨length_seqBE w p, length_seqLE w p, ofSeqBE_seqBE w p, ofSeqLE_seqLE w p, reverse_seqBE w p,
      seqLE_bswapValue w p, seqBE_bswapValue w p, ofSeqNE_seqNE w p⟩,
    fun _ hl => ⟨seqBE_ofSeqBE w hl, seqLE_ofSeqLE w hl, seqNE_ofSeqNE w hl⟩⟩

end Sys2Proof.Machine
end

section
/-! SUPPORT. The encoding statements (spec 30_encoding.md R60 to R77; R66, R146, R165 and R201): command words and their
fields, what flipping SGN reaches, the assembler and the disassembler, and the steps and runs of a host program. -/

namespace Sys2Proof.Machine

/-! ### The fields of a command word -/

theorem toNat_rsvField (cmd : CmdWord) : (rsvField cmd).toNat = cmd.toNat / 256 := by
  have := cmd.isLt
  rw [rsvField, BitVec.extractLsb'_toNat, Nat.shiftRight_eq_div_pow, Nat.mod_eq_of_lt (by omega)]

theorem toNat_sgnField (cmd : CmdWord) : (sgnField cmd).toNat = cmd.toNat / 128 % 2 := by
  rw [sgnField, BitVec.extractLsb'_toNat, Nat.shiftRight_eq_div_pow]

/-- A command word is its four fields, from the most significant bit down (R60). -/
theorem fields_append (cmd : CmdWord) :
    (rsvField cmd ++ sgnField cmd ++ wselField cmd ++ opField cmd : BitVec (8 + 1 + 2 + 5)) = cmd := by
  have hrs : rsvField cmd ++ sgnField cmd = cmd.extractLsb' 7 9 :=
    BitVec.extractLsb'_append_extractLsb'_eq_extractLsb' (start₁ := 7) rfl
  have hrsw : cmd.extractLsb' 7 9 ++ wselField cmd = cmd.extractLsb' 5 11 :=
    BitVec.extractLsb'_append_extractLsb'_eq_extractLsb' (start₁ := 5) rfl
  have hall : cmd.extractLsb' 5 11 ++ opField cmd = cmd.extractLsb' 0 16 :=
    BitVec.extractLsb'_append_extractLsb'_eq_extractLsb' (start₁ := 0) rfl
  rw [hrs, hrsw, hall]
  exact BitVec.extractLsb'_eq_self

theorem sgnOfSignedness_signednessOfSgn (f : BitVec 1) : sgnOfSignedness (signednessOfSgn f) = f := by
  revert f; decide

theorem wselOfWidth_widthOfWsel (f : BitVec 2) : wselOfWidth (widthOfWsel f) = f := by
  revert f; decide

theorem signednessOfSgn_eq_signed_iff (f : BitVec 1) : signednessOfSgn f = .signed ↔ f.toNat = 1 := by
  revert f; decide

/-- The OP values R61 leaves reserved. -/
theorem opTable_isNone_iff (f : BitVec 5) :
    (opTable f).isNone = true ↔ f.toNat ∈ [0x07, 0x0E, 0x0F] ∨ 0x14 ≤ f.toNat := by
  revert f; decide

/-! ### Decoding -/

/-- What the decoder answers: RSV is 0, and the row of OP makes the instruction from the type in SGN and WSEL (R68). -/
theorem decode_ok_iff {cmd : CmdWord} {i : Instr} : decode cmd = .ok i ↔ rsvField cmd = 0 ∧
    ∃ op, opTable (opField cmd) = some op ∧ op ⟨signednessOfSgn (sgnField cmd), widthOfWsel (wselField cmd)⟩ = i := by
  unfold decode
  split
  · next h => exact iff_of_false (fun h' => by cases h') fun h' => h h'.1
  · next h =>
    split
    · next hop => simp [hop]
    · next op hop => simp [Decidable.not_not.1 h, hop]

/-- A row of the opcode table makes an instruction of the type it is given. -/
theorem ty_of_opTable {f : BitVec 5} {op : Ty → Instr} (h : opTable f = some op) (t : Ty) : (op t).ty = t := by
  unfold opTable at h
  split at h <;> cases h <;> rfl

/-- The type of a word that decodes is in its SGN and WSEL (R63, R64). -/
theorem ty_of_decode {cmd : CmdWord} {i : Instr} (h : decode cmd = .ok i) :
    i.ty = ⟨signednessOfSgn (sgnField cmd), widthOfWsel (wselField cmd)⟩ := by
  obtain ⟨-, op, hop, rfl⟩ := decode_ok_iff.1 h
  exact ty_of_opTable hop _

/-- A word that decodes is the word of its instruction. -/
theorem encode_of_decode {cmd : CmdWord} {i : Instr} (h : decode cmd = .ok i) : encode i = cmd := by
  obtain ⟨hrsv, -⟩ := decode_ok_iff.1 h
  rw [encode, formatC, ty_of_decode h, op_of_decode h, sgnOfSignedness_signednessOfSgn, wselOfWidth_widthOfWsel]
  calc _ = (rsvField cmd ++ sgnField cmd ++ wselField cmd ++ opField cmd : BitVec (8 + 1 + 2 + 5)) := by rw [hrsv]; rfl
    _ = cmd := fields_append cmd

theorem legal_iff (cmd : CmdWord) :
    legal cmd = true ↔ rsvField cmd = 0 ∧ (opTable (opField cmd)).isSome = true := by
  constructor
  · intro h
    obtain ⟨i, hi⟩ := exists_decode_of_legal h
    obtain ⟨hrsv, op, hop, -⟩ := decode_ok_iff.1 hi
    exact ⟨hrsv, by rw [hop]; rfl⟩
  · rintro ⟨hrsv, hop⟩
    obtain ⟨op, hop⟩ := Option.isSome_iff_exists.1 hop
    exact legal_of_decode (decode_ok_iff.2 ⟨hrsv, op, hop, rfl⟩)

/-- The illegal words as numbers (R65). -/
theorem legal_eq_false_iff (cmd : CmdWord) : legal cmd = false ↔
    cmd.toNat / 256 ≠ 0 ∨ cmd.toNat % 32 ∈ [0x07, 0x0E, 0x0F] ∨ 0x14 ≤ cmd.toNat % 32 := by
  have hrsv : rsvField cmd = 0 ↔ cmd.toNat / 256 = 0 := by
    rw [← toNat_rsvField]
    exact BitVec.toNat_inj.symm
  rw [← Bool.not_eq_true, legal_iff, not_and_or, hrsv, Bool.not_eq_true, Option.isSome_eq_false_iff, opTable_isNone_iff,
    toNat_opField]

/-! ### How many words are legal -/

/-- Below 256 RSV is 0, and OP alone decides. -/
theorem legal_ofNat_eq_false_iff {n : Nat} (hn : n < 256) : legal (BitVec.ofNat 16 n) = false ↔
    n % 32 ∈ [0x07, 0x0E, 0x0F] ∨ 0x14 ≤ n % 32 := by
  rw [legal_eq_false_iff, BitVec.toNat_ofNat, Nat.mod_eq_of_lt (by omega), Nat.div_eq_of_lt hn]
  exact or_iff_right (not_not_intro rfl)

theorem legal_ofNat_mul_add {k r : Nat} (hk : k < 8) (hr : r < 32) :
    legal (BitVec.ofNat 16 (32 * k + r)) = legal (BitVec.ofNat 16 r) := by
  rw [Bool.eq_iff_iff, ← not_iff_not, Bool.not_eq_true, Bool.not_eq_true, legal_ofNat_eq_false_iff (by omega),
    legal_ofNat_eq_false_iff (by omega), Nat.mul_add_mod]

/-- Each value of SGN and WSEL gives the 17 OP values of R61. -/
theorem length_legal_of_types {k : Nat} (hk : k ≤ 8) :
    ((List.range (32 * k)).filter fun n => legal (BitVec.ofNat 16 n)).length = 17 * k := by
  induction k with
  | zero => rfl
  | succ k ih =>
    have hrow : ((List.range 32).filter fun r => legal (BitVec.ofNat 16 (32 * k + r))).length = 17 :=
      calc _ = ((List.range 32).filter fun r => legal (BitVec.ofNat 16 r)).length :=
            congrArg List.length (List.filter_congr fun r hr => legal_ofNat_mul_add hk (List.mem_range.1 hr))
        _ = 17 := by decide
    rw [Nat.mul_succ, List.range_add, List.filter_append, List.length_append, ih (Nat.le_of_succ_le hk), List.filter_map,
      List.length_map]
    exact congrArg (17 * k + ·) hrow

/-- No word from 256 on is legal, since its RSV is not 0. -/
theorem filter_legal_range (m : Nat) (hm : m ≤ 65280) :
    (List.range (256 + m)).filter (fun n => legal (BitVec.ofNat 16 n)) =
      (List.range 256).filter fun n => legal (BitVec.ofNat 16 n) := by
  have hhigh : ((List.range m).map (256 + ·)).filter (fun n => legal (BitVec.ofNat 16 n)) = [] := by
    refine List.filter_eq_nil_iff.2 fun n hn => ?_
    obtain ⟨j, hj, rfl⟩ := List.mem_map.1 hn
    rw [List.mem_range] at hj
    rw [Bool.not_eq_true, legal_eq_false_iff, BitVec.toNat_ofNat, Nat.mod_eq_of_lt (by omega : 256 + j < 2 ^ 16)]
    exact .inl (by omega)
  rw [List.range_add, List.filter_append, hhigh, List.append_nil]

theorem length_legal : ((List.range 65536).filter fun n => legal (BitVec.ofNat 16 n)).length = 136 :=
  (congrArg List.length (filter_legal_range 65280 (Nat.le_refl _))).trans (length_legal_of_types (Nat.le_refl 8))

theorem length_filter_not {α : Type} {l : List α} {f : α → Bool} {m n : Nat} (hl : l.length = m + n)
    (hf : (l.filter f).length = m) : (l.filter fun x => !f x).length = n := by
  have := List.length_eq_length_filter_add (l := l) f
  omega

theorem length_illegal : ((List.range 65536).filter fun n => !legal (BitVec.ofNat 16 n)).length = 65400 :=
  length_filter_not List.length_range length_legal

/-! ### Flipping SGN -/

section FlipSgn
variable (cmd : CmdWord)

theorem rsvField_flipSgn : rsvField (cmd ^^^ 0x80#16) = rsvField cmd := by
  rw [rsvField, BitVec.extractLsb'_xor]
  exact BitVec.xor_zero

theorem wselField_flipSgn : wselField (cmd ^^^ 0x80#16) = wselField cmd := by
  rw [wselField, BitVec.extractLsb'_xor]
  exact BitVec.xor_zero

theorem opField_flipSgn : opField (cmd ^^^ 0x80#16) = opField cmd := by
  rw [opField, BitVec.extractLsb'_xor]
  exact BitVec.xor_zero

theorem legal_flipSgn : legal (cmd ^^^ 0x80#16) = legal cmd := by
  rw [Bool.eq_iff_iff, legal_iff, legal_iff, rsvField_flipSgn, opField_flipSgn]

/-- Words that differ in SGN are both illegal, or select one row of the opcode table at types of one width. -/
theorem coreFn_flipSgn (p : Params) (a b : Word) :
    coreFn p (cmd ^^^ 0x80#16) a b = coreFn p cmd a b ∨
    ∃ op s s' w, opTable (opField cmd) = some op ∧ coreFn p (cmd ^^^ 0x80#16) a b = opOut p (op ⟨s', w⟩) a b ∧
      coreFn p cmd a b = opOut p (op ⟨s, w⟩) a b := by
  cases hl : legal cmd with
  | false => exact .inl (by rw [coreFn_of_illegal hl, coreFn_of_illegal ((legal_flipSgn cmd).trans hl)])
  | true =>
    obtain ⟨i, hi⟩ := exists_decode_of_legal hl
    obtain ⟨hrsv, op, hop, rfl⟩ := decode_ok_iff.1 hi
    refine .inr ⟨op, _, signednessOfSgn (sgnField (cmd ^^^ 0x80#16)), _, hop, ?_, coreFn_of_decode hi a b⟩
    refine coreFn_of_decode (decode_ok_iff.2 ⟨(rsvField_flipSgn cmd).trans hrsv, op, ?_, ?_⟩) a b
    · rw [opField_flipSgn, hop]
    · rw [wselField_flipSgn]

end FlipSgn

/-- Outside add, sub, mul and shr no operation reads the signedness (R146, R165). -/
theorem opOut_sgn_irrelevant {f : BitVec 5} {op : Ty → Instr} (h : opTable f = some op)
    (hf : f.toNat ∉ [0x00, 0x01, 0x02, 0x04]) (p : Params) (s s' : Signedness) (w : Width) (a b : Word) :
    opOut p (op ⟨s', w⟩) a b = opOut p (op ⟨s, w⟩) a b := by
  unfold opTable at h
  split at h
  case h_1 hop | h_2 hop | h_3 hop | h_5 hop => exact absurd (by rw [hop]; decide) hf
  all_goals cases h <;> rfl

/-- The value of a pattern is its unsigned value modulo 2^W, in either signedness (R7). -/
theorem val_emod (t : Ty) (p : Pattern t.width) : val t p % 2 ^ t.bits = uval p := by
  have hu : uval p % 2 ^ t.bits = uval p := Int.emod_eq_of_lt (uval_nonneg p) (uval_lt p)
  rcases t with ⟨_ | _, w⟩
  · exact hu
  · exact (Int.sub_mul_emod_self_left _ _ _).trans hu

theorem val_modEq (s s' : Signedness) {w : Width} (p : Pattern w) : val ⟨s', w⟩ p ≡ val ⟨s, w⟩ p [ZMOD 2 ^ w.bits] :=
  (val_emod ⟨s', w⟩ p).trans (val_emod ⟨s, w⟩ p).symm

theorem enc_eq_of_modEq {n : Nat} {x y : Int} (h : x ≡ y [ZMOD 2 ^ n]) : enc n x = enc n y := by
  rw [enc, enc, h.eq]

/-- The Y of add, sub and mul is the same for both signednesses: congruent operands give congruent results (R108). -/
theorem opOut_y_sgn_irrelevant {f : BitVec 5} {op : Ty → Instr} (h : opTable f = some op)
    (hf : f.toNat ∈ [0x00, 0x01, 0x02]) (p : Params) (s s' : Signedness) (w : Width) (a b : Word) :
    (opOut p (op ⟨s', w⟩) a b).y = (opOut p (op ⟨s, w⟩) a b).y := by
  have hA := val_modEq s s' (w := w) (operandA ⟨s, w⟩ a)
  have hB := val_modEq s s' (w := w) (operandB ⟨s, w⟩ b)
  unfold opTable at h
  split at h
  case h_1 => cases h; exact congrArg place (enc_eq_of_modEq (hA.add hB))
  case h_2 => cases h; exact congrArg place (enc_eq_of_modEq (hA.sub hB))
  case h_3 => cases h; exact congrArg place (enc_eq_of_modEq (hA.mul hB))
  all_goals cases h <;> simp [‹f.toNat = _›] at hf

/-! ### Host variables and sources -/

theorem readVar_writeVar_other {x z : Var} (h : z ≠ x) (s : State) (w : Word) :
    (s.writeVar x w).readVar z = s.readVar z :=
  lookupVar_insertVar_other h w s.vars

/-- A variable has no value exactly when it is not listed. -/
theorem lookupVar_eq_none_iff (x : Nat) (vs : List (Nat × Word)) :
    lookupVar x vs = none ↔ x ∉ vs.map (fun kv => kv.1) := by
  induction vs with
  | nil => simp [lookupVar]
  | cons kv rest ih =>
    rw [lookupVar, List.map_cons, List.mem_cons, not_or, ← ih]
    split
    · next h => simp [h]
    · next h => simp [h]

theorem readSrc_of_unwritten {s : State} {x : Var} (h : s.readVar x = none) :
    s.readSrc (.var x) = .error (.unwrittenVariable x) := by
  simp only [State.readSrc, h]

/-! ### Lines that stop -/

section Lines
variable {s : State} {cmd : CmdWord} {srcA : Src} {srcB : Option Src} {a b : Word} {f : Fault}

theorem runCommand_of_unread_first (ha : s.readSrc srcA = .error f) (dst : Var) (cmd : CmdWord) (srcB : Option Src) :
    runCommand dst cmd srcA srcB s = .fault f := by
  simp only [runCommand, ha]

theorem runCommand_of_unread_second (ha : s.readSrc srcA = .ok a) (hb : s.readSrcB srcB = .error f) (dst : Var)
    (cmd : CmdWord) : runCommand dst cmd srcA srcB s = .fault f := by
  simp only [runCommand, ha, hb]

/-- An illegal word completes in the core with ILL = 1, and that faults the line (R66, R201; log 6). -/
theorem runCommand_of_illegal (ha : s.readSrc srcA = .ok a) (hb : s.readSrcB srcB = .ok b) (hl : legal cmd = false)
    (dst : Var) : runCommand dst cmd srcA srcB s = .fault (.illegalCommand cmd) := by
  simp only [runCommand, ha, hb, present_eq, setOut_out, coreFn_of_illegal hl]
  rfl

theorem compareBranch_of_unwritten {x : Var} (h : s.readVar x = none) (target : Nat) (cond : Word → Bool) :
    compareBranch x target cond s = .fault (.unwrittenVariable x) := by
  simp only [compareBranch, h]

theorem step_of_outside (hs : s.status = .running) (h : s.prog.length ≤ s.line) :
    step s = .fault (.lineOutside s.line) := by
  simp only [step, hs, List.getElem?_eq_none h]

theorem step_of_ended (hs : s.status ≠ .running) : step s = .fault .runEnded := by
  unfold step
  split
  · next h => exact absurd h hs
  · rfl
  · rfl

end Lines

/-! ### Well-formed programs -/

/-- Every line of a well-formed list of lines passes its check, under its own number. -/
theorem wf_of_linesWf {n k j : Nat} {prog : List Line} {l : Line} (h : linesWf n k prog = true)
    (hl : prog[j]? = some l) : l.wf n (k + j) = true := by
  induction prog generalizing k j with
  | nil => cases hl
  | cons m rest ih =>
    obtain ⟨hm, hrest⟩ := Bool.and_eq_true_iff.1 h
    cases j with
    | zero => cases hl; exact hm
    | succ j =>
      rw [← Nat.succ_add_eq_add_succ]
      exact ih hrest hl

theorem State.ProgramOk.exists_line {s : State} (h : s.ProgramOk) :
    ∃ l, s.prog[s.line]? = some l ∧ l.wf s.prog.length s.line = true := by
  have hl := List.getElem?_eq_getElem h.line_lt
  exact ⟨_, hl, by simpa using wf_of_linesWf h.prog_wf hl⟩

theorem legal_of_commandWf {cmd : CmdWord} {srcB : Option Src} (h : commandWf cmd srcB = true) : legal cmd = true := by
  unfold commandWf at h
  split at h
  · next i hi => exact legal_of_decode hi
  · cases h

/-- A checked line stops only on a variable nothing has written. -/
theorem runLine_of_wf {l : Line} {m : Nat} {s : State} (h : l.wf m s.line = true) :
    (∃ s', runLine l s = .next s') ∨ ∃ f, runLine l s = .fault f ∧ f.allowed = true := by
  cases l with
  | command dst cmd srcA srcB =>
    have hl : legal cmd = true := legal_of_commandWf (Bool.and_eq_true_iff.1 h).1
    obtain ⟨f, ha, hf⟩ | ⟨a, f, -, hb, hf⟩ | ⟨a, b, -, -, hill, -⟩ | ⟨a, b, -, -, -, hn⟩ :=
      runCommand_cases dst cmd srcA srcB s
    · obtain ⟨x, -, -, rfl⟩ := readSrc_error ha
      exact .inr ⟨_, hf, rfl⟩
    · obtain ⟨x, -, -, rfl⟩ := readSrcB_error hb
      exact .inr ⟨_, hf, rfl⟩
    · cases hill.symm.trans hl
    · exact .inl ⟨_, hn⟩
  | ifEq x w n | ifNe x w n =>
    obtain ⟨-, hf⟩ | ⟨v, -, hn⟩ := compareBranch_cases x n _ s
    · exact .inr ⟨_, hf, rfl⟩
    · exact .inl ⟨_, hn⟩
  | _ => exact .inl ⟨_, rfl⟩

/-- A checked line that goes on leaves the line index on a line. -/
theorem State.ProgramOk.of_runLine {s s' : State} {l : Line} (h : s.ProgramOk)
    (hwf : l.wf s.prog.length s.line = true) (hrun : runLine l s = .next s') : s'.ProgramOk := by
  obtain ⟨dst, cmd, srcA, srcB, a, b, rfl, -, -, -, rfl⟩ | ⟨dst, w, rfl, rfl⟩ | ⟨n, rfl, hn⟩ | ⟨st, rfl⟩ :=
    runLine_next hrun
  · exact ⟨h.prog_wf, of_decide_eq_true (Bool.and_eq_true_iff.1 hwf).2⟩
  · exact ⟨h.prog_wf, of_decide_eq_true hwf⟩
  · exact ⟨h.prog_wf, hn _ hwf⟩
  · exact ⟨h.prog_wf, h.line_lt⟩

/-- A step of a well-formed program goes on with one, or stops where the spec lets it. -/
theorem State.ProgramOk.step {s : State} (h : s.ProgramOk) :
    (∃ s', step s = .next s' ∧ s'.ProgramOk) ∨ ∃ f, step s = .fault f ∧ f.allowed = true := by
  by_cases hs : s.status = .running
  · obtain ⟨l, hl, hwf⟩ := h.exists_line
    rw [step_eq_runLine hs hl]
    obtain ⟨s', hn⟩ | hf := runLine_of_wf hwf
    · exact .inl ⟨s', hn, h.of_runLine hwf hn⟩
    · exact .inr hf
  · exact .inr ⟨_, step_of_ended hs, rfl⟩

/-! ### What the assembler answers -/

/-- A command expands to one with the same instruction, type and destination (R76). -/
theorem expand_ok {c c' : Command} (h : c.expand = .ok c') :
    c'.dst = c.dst ∧ c'.suffix = c.suffix ∧ c'.mnemonic.instr = c.mnemonic.instr := by
  obtain ⟨m, ty, dst, src1, src2⟩ := c
  cases m with
  | neg => cases src2 <;> cases h; exact ⟨rfl, rfl, rfl⟩
  | _ => cases h; exact ⟨rfl, rfl, rfl⟩

/-- An assembled command is a command line with the word of its mnemonic and type. -/
theorem assembleCommand_ok {p : Params} {c : Command} {l : Line} (h : assembleCommand p c = .ok l) :
    ∃ srcA srcB, l = .command c.dst (encode (c.instr p)) srcA srcB := by
  unfold assembleCommand at h
  split at h
  · next c' hc =>
    obtain ⟨hdst, hsuffix, hinstr⟩ := expand_ok hc
    obtain ⟨srcA, srcB, -, -, rfl⟩ := assembleExpanded_ok_iff.1 h
    exact ⟨srcA, srcB, by rw [Command.instr, Command.instr, hdst, hsuffix, hinstr]⟩
  · cases h

/-- Of the suffix the assembler reads the type alone (R71). -/
theorem assembleExpanded_eq_of_ty {p : Params} {s s' : TypeSuffix} (h : s.ty p = s'.ty p) (c : Command) :
    assembleExpanded p { c with suffix := s } = assembleExpanded p { c with suffix := s' } := by
  simp only [assembleExpanded, Command.instr, h]

theorem assembleCommand_eq_of_ty {p : Params} {s s' : TypeSuffix} (h : s.ty p = s'.ty p) (c : Command) :
    assembleCommand p { c with suffix := s } = assembleCommand p { c with suffix := s' } := by
  obtain ⟨m, ty, dst, src1, src2⟩ := c
  cases m with
  | neg =>
    cases src2 with
    | none => exact assembleExpanded_eq_of_ty h ⟨.sub, ty, dst, .lit (.dec 0), some src1⟩
    | some o => rfl
  | frombe => exact assembleExpanded_eq_of_ty h ⟨.tobe, ty, dst, src1, src2⟩
  | fromle => exact assembleExpanded_eq_of_ty h ⟨.tole, ty, dst, src1, src2⟩
  | popcnt => exact assembleExpanded_eq_of_ty h ⟨.cnto, ty, dst, src1, src2⟩
  | _ => exact assembleExpanded_eq_of_ty h _

/-- The suffix a type prints with names that type, whatever PTR_BITS is (R71, R74). -/
theorem ty_suffixOf (p : Params) (t : Ty) : (suffixOf t).ty p = t := by
  rcases t with ⟨_ | _, _ | _ | _ | _⟩ <;> rfl

theorem suffixOf_ne_pointer (t : Ty) : suffixOf t ≠ .usize ∧ suffixOf t ≠ .isize := by
  rcases t with ⟨_ | _, _ | _ | _ | _⟩ <;> decide

theorem instr_mnemonicOf (i : Instr) : (mnemonicOf i).instr i.ty = i := by
  cases i <;> rfl

theorem ty_instr (p : Params) (c : Command) : (c.instr p).ty = c.suffix.ty p := by
  unfold Command.instr
  cases c.mnemonic <;> rfl

/-! ### The words of commands -/

/-- The word of a format C command as a number (R73). -/
theorem toNat_formatC (t : Ty) (op : BitVec 5) : (formatC t op).toNat = Claims.typeField t + op.toNat := by
  rcases t with ⟨_ | _, _ | _ | _ | _⟩ <;> revert op <;> decide

theorem typeField_le (t : Ty) : Claims.typeField t ≤ 224 := by
  rcases t with ⟨_ | _, _ | _ | _ | _⟩ <;> decide

/-! ### Literals -/

/-- A pattern is the encoding of its value (R7, R8). -/
theorem enc_val (t : Ty) (p : Pattern t.width) : enc t.bits (val t p) = p := by
  rw [← uval_inj, uval_enc, val_emod]

/-- A literal that stands for a number in a type is driven as that number where it is in range (R72). -/
theorem typedLiteral_of_typed {t : Ty} {l : Literal} {n : Int} (h : l.typed t = some n) : typedLiteral t l =
    if minOf t ≤ n ∧ n ≤ maxOf t then .ok ((enc t.bits n).setWidth 64) else .error (.literalOutOfRange l) := by
  simp only [typedLiteral, h, inRange_iff, place]

/-- A literal that stands for the value of a pattern is driven as that pattern. -/
theorem typedLiteral_of_typed_val {t : Ty} {l : Literal} {q : Pattern t.width} (h : l.typed t = some (val t q)) :
    typedLiteral t l = .ok (q.setWidth 64) := by
  rw [typedLiteral_of_typed h, if_pos ((inRange_iff t _).1 (val_inRange t q)), enc_val]

theorem typed_hex_unsigned (w : Width) (n : Nat) : (Literal.hex n).typed (Claims.u w) = some (n : Int) := rfl

/-- A hexadecimal literal of a signed type is a bit pattern (R72). -/
theorem typed_hex_signed {w : Width} (q : Pattern w) : (Literal.hex q.toNat).typed (Claims.i w) = some (sval q) := by
  have hq : q.toNat < 2 ^ w.bits := q.isLt
  simp only [Literal.typed, hq, if_true, BitVec.ofNat_toNat, BitVec.setWidth_eq]

/-- A hexadecimal literal with more than W bits is refused (R72; log 12). -/
theorem typedLiteral_hex_too_wide {t : Ty} {n : Nat} (h : 2 ^ t.bits ≤ n) :
    typedLiteral t (.hex n) = .error (.literalOutOfRange (.hex n)) := by
  rcases t with ⟨_ | _, w⟩
  · have hmax : ¬ (n : Int) ≤ maxOf (Claims.u w) := by
      have h' : (2 : Int) ^ w.bits ≤ n := by exact_mod_cast h
      exact Int.not_le.2 (Int.lt_of_lt_of_le (sub_one_lt _) h')
    rw [typedLiteral_of_typed (typed_hex_unsigned w n), if_neg fun hr => hmax hr.2]
  · simp only [typedLiteral, Literal.typed, Nat.not_lt.2 h, if_false]

/-- An amount is driven as the number it stands for where that is below 2^32 (R72). -/
theorem amountLiteral_of_plain {l : Literal} {n : Int} (h : l.plain = n) : amountLiteral l =
    if 0 ≤ n ∧ n < 2 ^ 32 then .ok ((enc 32 n).setWidth 64) else .error (.literalOutOfRange l) := by
  subst h
  rfl

theorem setWidth_enc_natCast {n : Nat} (h : n < 2 ^ 32) : (enc 32 n).setWidth 64 = BitVec.ofNat 64 n := by
  rw [enc_eq_ofInt, BitVec.ofInt_natCast, BitVec.setWidth_ofNat_of_le_of_lt (by decide) h]

/-- A hexadecimal amount below 2^32 is driven as its number (log 12). -/
theorem amountLiteral_hex (n : Nat) : amountLiteral (.hex n) =
    if n < 2 ^ 32 then .ok (BitVec.ofNat 64 n) else .error (.literalOutOfRange (.hex n)) := by
  rw [amountLiteral_of_plain (n := n) rfl]
  by_cases h : n < 2 ^ 32
  · rw [if_pos h, if_pos (by omega), setWidth_enc_natCast h]
  · rw [if_neg h, if_neg (by omega)]

/-! ### Operands -/

theorem assembleOperand_ok_iff {lit : Literal → Except AsmError Word} {o : Operand} {src : Src} :
    assembleOperand lit o = .ok src ↔ Claims.ReadsAs lit o src := by
  cases o with
  | var x => simp [Claims.ReadsAs, eq_comm]
  | lit l => cases hl : lit l <;> simp [Claims.ReadsAs, assembleOperand, hl, eq_comm]

theorem map_some_ok_iff {r : Except AsmError Src} {srcB : Option Src} :
    r.map some = .ok srcB ↔ ∃ src, r = .ok src ∧ srcB = some src := by
  cases r <;> simp [Except.map, eq_comm]

section Second
variable {t : Ty} {oB : Option Operand} {srcB : Option Src}

theorem assembleSecond_binary_ok_iff : assembleSecond .binary t oB = .ok srcB ↔
    ∃ o src, oB = some o ∧ srcB = some src ∧ Claims.ReadsAs (typedLiteral t) o src := by
  cases oB with
  | none => simp [assembleSecond]
  | some o => simp [assembleSecond, map_some_ok_iff, assembleOperand_ok_iff, and_comm]

theorem assembleSecond_shift_ok_iff : assembleSecond .shift t oB = .ok srcB ↔
    ∃ o src, oB = some o ∧ srcB = some src ∧ Claims.ReadsAs amountLiteral o src := by
  cases oB with
  | none => simp [assembleSecond]
  | some o => simp [assembleSecond, map_some_ok_iff, assembleOperand_ok_iff, and_comm]

theorem assembleSecond_unary_ok_iff : assembleSecond .unary t oB = .ok srcB ↔ oB = none ∧ srcB = none := by
  cases oB <;> simp [assembleSecond, eq_comm]

end Second

/-- A second source whose literal its place does not accept is refused by name. -/
theorem assembleSecond_error {cls : OpClass} {t : Ty} {l : Literal} {e : AsmError}
    (h : (cls = .binary ∧ typedLiteral t l = .error e) ∨ (cls = .shift ∧ amountLiteral l = .error e)) :
    assembleSecond cls t (some (.lit l)) = .error e := by
  obtain ⟨rfl, hl⟩ | ⟨rfl, hl⟩ := h <;> rw [assembleSecond, assembleOperand_lit_error hl] <;> rfl

theorem typedLiteral_error {t : Ty} {l : Literal} {e : AsmError} (h : typedLiteral t l = .error e) :
    e = .literalOutOfRange l := by
  obtain ⟨w, hw⟩ | hl := typedLiteral_cases t l
  · cases hw.symm.trans h
  · cases hl.symm.trans h; rfl

theorem amountLiteral_error {l : Literal} {e : AsmError} (h : amountLiteral l = .error e) :
    e = .literalOutOfRange l := by
  obtain ⟨w, hw⟩ | hl := amountLiteral_cases l
  · cases hw.symm.trans h
  · cases hl.symm.trans h; rfl

/-! ### The written form -/

/-- A text is cut at its first point. -/
theorem splitPoint_append {before : List Char} (h : '.' ∉ before) (after : List Char) :
    splitPoint (before ++ '.' :: after) = some (before, after) := by
  induction before with
  | nil => rfl
  | cons c rest ih =>
    rw [List.mem_cons, not_or] at h
    obtain ⟨hc, hrest⟩ := h
    simp only [List.cons_append, splitPoint, Ne.symm hc, if_false, ih hrest]

theorem point_notMem_text (m : Mnemonic) : '.' ∉ m.text.toList := by
  cases m <;> decide

theorem find_mnemonic (m : Mnemonic) : allMnemonics.find? (fun k => k.text == m.text) = some m := by
  cases m <;> decide

theorem find_suffix (ty : TypeSuffix) : allSuffixes.find? (fun k => k.text == ty.text) = some ty := by
  cases ty <;> decide

/-- What is printed of an operation reads back. -/
theorem readOperation_operationText (m : Mnemonic) (ty : TypeSuffix) :
    readOperation (operationText m ty) = some (m, ty) := by
  have htext : (operationText m ty).toList = m.text.toList ++ '.' :: ty.text.toList := by
    rw [operationText, String.toList_append, String.toList_append, List.append_assoc]
    rfl
  simp only [readOperation, htext, splitPoint_append (point_notMem_text m), String.ofList_toList, find_mnemonic,
    find_suffix]

theorem disassemble_encode (i : Instr) : disassemble (encode i) = operationText (mnemonicOf i) (suffixOf i.ty) := by
  simp only [disassemble, decode_encode]

theorem disassemble_of_illegal {cmd : CmdWord} (h : legal cmd = false) : disassemble cmd = ".word 0x" ++ hexText cmd := by
  unfold disassemble
  split
  · next i hi => cases h.symm.trans (legal_of_decode hi)
  · rfl

/-! ### The obligations -/

/-- Settles O4: the word of an instruction decodes to it by its fields, and a word that decodes is the append of the fields
of its instruction. -/
theorem decodeIsTheInverseOfEncode : Obligations.DecodeIsTheInverseOfEncode :=
  fun _ i => ⟨encode_of_decode, fun h => h ▸ decode_encode i⟩

/-- Settles O5: a word is illegal by RSV or by OP; so every legal word is below 256, and those are counted. -/
theorem illegalExactlyReservedWords : Obligations.IllegalExactlyReservedWords :=
  ⟨legal_eq_false_iff, fun p _ a b h => coreFn_of_illegal h p a b, fun p cmd a b h => by rw [coreFn_ill, h]; rfl,
    length_legal, length_illegal⟩

/-- Settles O13: flipping bit 7 flips the field SGN alone, which only add, sub, mul and shr read, the first three only
through the range. -/
theorem signednessChangesOnlyArithmeticAndShr : Obligations.SignednessChangesOnlyArithmeticAndShr := by
  refine ⟨fun cmd i h => ?_, legal_flipSgn, fun p cmd a b hop => ?_, fun p cmd a b hop => ?_⟩
  · rw [ty_of_decode h, signednessOfSgn_eq_signed_iff, toNat_sgnField]
  · obtain h | ⟨op, s, s', w, hrow, h', h⟩ := coreFn_flipSgn cmd p a b
    · exact h
    · rw [h', h, opOut_sgn_irrelevant hrow (by rwa [toNat_opField])]
  · obtain h | ⟨op, s, s', w, hrow, h', h⟩ := coreFn_flipSgn cmd p a b
    · rw [h]
    · rw [h', h, opOut_y_sgn_irrelevant hrow (by rwa [toNat_opField])]

/-- Settles O56, by induction on the number of steps, with the claim for one step. -/
theorem wellFormedProgramsStopOnlyWhereAllowed : Obligations.WellFormedProgramsStopOnlyWhereAllowed := by
  intro s k h
  induction k generalizing s with
  | zero => exact h
  | succ k ih =>
    obtain ⟨s', hs, hok⟩ | ⟨f, hs, hf⟩ := h.step
    · rw [run_next k hs]
      exact ih s' hok
    · rw [run_fault k hs]
      exact hf

/-- Settles O37: a list of variables reads back a write, keeps the others, and gives no value for one it does not list. -/
theorem hostVariablesReadBack : Obligations.HostVariablesReadBack :=
  fun s x w => ⟨readVar_writeVar_same s x w, fun _ hz => readVar_writeVar_other hz s w, lookupVar_eq_none_iff x s.vars⟩

/-- Settles O34: a word that decodes is legal, so the command line takes CORE's outputs, which are those the instruction
drives. -/
theorem stepRunsTheDecodedInstruction : Obligations.StepRunsTheDecodedInstruction := by
  intro s dst cmd srcA srcB i a b hs hl hd ha hb
  refine ⟨_, exec_eq i _, ?_⟩
  calc step s = runCommand dst cmd srcA srcB s := step_eq_runLine hs hl
    _ = .next (((s.drive cmd a b).setOut (opOut s.params i a b)).latch dst) := by
      rw [runCommand_of_legal ha hb (legal_of_decode hd), coreFn_of_decode hd]

/-- Settles O35: the command line with an illegal word faults, and the step runs that line. -/
theorem illegalCommandFaultsTheStep : Obligations.IllegalCommandFaultsTheStep :=
  fun _ dst _ _ _ _ _ hs hl hill ha hb => (step_eq_runLine hs hl).trans (runCommand_of_illegal ha hb hill dst)

/-- Settles O36: the step runs the line at the line index, and each line form has its effect. -/
theorem hostLinesHaveTheirEffects : Obligations.HostLinesHaveTheirEffects := by
  intro s hs
  refine ⟨fun dst cmd srcA srcB a b hl ha hb hlegal => ?command, fun dst w hl => ?setWord, fun want m hl => ?ifOvf,
    fun m hl => ?ifIll, fun x w m v hl hv => ?ifEq, fun x w m v hl hv => ?ifNe, fun m hl => ?goto, fun hl => ?halt,
    fun msg hl => ?fail, fun x w m hl hx => ?compareUnwritten, fun dst cmd x srcB hl hx => ?firstUnwritten,
    fun dst cmd srcA x a hl ha hx => ?secondUnwritten, step_of_outside hs⟩
  case compareUnwritten =>
    obtain hl | hl := hl <;> exact (step_eq_runLine hs hl).trans (compareBranch_of_unwritten hx m _)
  all_goals rw [step_eq_runLine hs hl]
  case command => exact runCommand_of_legal ha hb hlegal dst
  case ifOvf => simp only [runLine, branch_eq_goto, beq_iff_eq, State.goto]
  case ifIll => simp only [runLine, branch_eq_goto, State.goto]
  case ifEq => exact runLine_ifEq_of_read hv w m
  case ifNe => exact runLine_ifNe_of_read hv w m
  case firstUnwritten => exact runCommand_of_unread_first (readSrc_of_unwritten hx) dst cmd srcB
  case secondUnwritten => exact runCommand_of_unread_second (srcB := some (.var x)) ha (readSrc_of_unwritten hx) dst cmd
  all_goals rfl

/-- Settles O39: a literal is driven where the number it stands for is in range, and a command assembles by its operands,
each with the reading of a literal that its place asks for. -/
theorem literalsAreRangeChecked : Obligations.LiteralsAreRangeChecked := by
  refine ⟨fun t n => typedLiteral_of_typed rfl, fun n => amountLiteral_of_plain rfl,
    fun w q => ⟨typedLiteral_of_typed_val (typed_hex_signed q), typed_hex_signed q⟩,
    fun w q => typedLiteral_of_typed_val (t := Claims.u w) rfl, fun t n h => typedLiteral_hex_too_wide h,
    amountLiteral_hex, fun p m ty y oA oB hm => ?_⟩
  intro t c
  have hc : assembleCommand p c = assembleExpanded p c := assembleCommand_of_ne_neg hm
  rw [hc]
  refine ⟨fun line => ?_, fun l e hA hl => ?_, fun l e srcA hA hB h => ?_⟩
  · have hline : assembleExpanded p c = .ok line ↔ ∃ srcA srcB, line = .command y (encode (m.instr t)) srcA srcB ∧
        Claims.ReadsAs (typedLiteral t) oA srcA ∧ assembleSecond (m.instr t).opClass t oB = .ok srcB := by
      rw [assembleExpanded_ok_iff]
      simp only [assembleOperand_ok_iff]
      exact exists_congr fun a => exists_congr fun b => by rw [← and_assoc, and_comm]; rfl
    rw [hline]
    cases (m.instr t).opClass with
    | binary => simp only [assembleSecond_binary_ok_iff]
    | shift => simp only [assembleSecond_shift_ok_iff]
    | unary => simp only [assembleSecond_unary_ok_iff]
  · subst hA
    rw [← typedLiteral_error hl]
    exact assembleExpanded_error_first (assembleOperand_lit_error hl)
  · subst hB
    have he : e = .literalOutOfRange l := h.elim (fun h => typedLiteral_error h.2) fun h => amountLiteral_error h.2
    rw [← he]
    exact assembleExpanded_error_second (assembleOperand_ok_iff.2 hA) (assembleSecond_error h)

/-- Settles O40: an assembled command has the word of its instruction, which decodes, and whose fields add up to at most
255. -/
theorem assembledCommandsAreLegal : Obligations.AssembledCommandsAreLegal := by
  refine ⟨⟨by decide, by decide, by decide⟩, fun p c l h => ?_⟩
  obtain ⟨srcA, srcB, rfl⟩ := assembleCommand_ok h
  have hword : (encode (c.instr p)).toNat = Claims.typeField (c.suffix.ty p) + (c.instr p).op.toNat := by
    rw [encode, toNat_formatC, ty_instr]
  refine ⟨_, srcA, srcB, rfl, legal_of_decode (decode_encode _), ?_, hword⟩
  have htype := typeField_le (c.suffix.ty p)
  have hop := (c.instr p).op.isLt
  omega

/-- Settles O43: what is printed is a mnemonic, a point and a suffix, which are found again by their names. -/
theorem disassemblyIsTheInverse : Obligations.DisassemblyIsTheInverse := by
  refine ⟨fun p i => ⟨mnemonicOf i, suffixOf i.ty, ?_, disassemble_encode i, (suffixOf_ne_pointer i.ty).1,
    (suffixOf_ne_pointer i.ty).2, ?_⟩, fun cmd h => disassemble_of_illegal h⟩
  · rw [disassemble_encode, readOperation_operationText]
  · rw [ty_suffixOf, instr_mnemonicOf]

/-- Settles O41: a pointer type and the fixed type of width PTR_BITS name one type. -/
theorem pointerTypesAssembleByPtrBits : Obligations.PointerTypesAssembleByPtrBits := by
  intro p c c' hc h
  have hty : c.suffix.ty p = c'.suffix.ty p := by
    obtain ⟨h, h'⟩ | ⟨h, h'⟩ := h <;> rw [h, h', ty_suffixOf] <;> rfl
  rw [hc]
  exact assembleCommand_eq_of_ty hty c'

/-- Settles O42: the assembler's first step on a pseudo-instruction is its expansion. -/
theorem pseudoInstructionsExpand : Obligations.PseudoInstructionsExpand :=
  fun _ _ _ _ => ⟨rfl, rfl, rfl, rfl⟩

/-- Settles O6: the fields of each written word, looked up in the tables. -/
theorem writtenWordsDecode : Obligations.WrittenWordsDecode := by
  refine ⟨?_, ?_, ?_, ?_, ?_, ?_, ?_, ?_⟩ <;> decide

end Sys2Proof.Machine
end

section
/-! SUPPORT. The arithmetic statements (spec 40_arith.md R100 to R108; 45_result_forms.md R188): add, sub and mul through the
exact result, which `exactOf` names, the bit-level forms of their patterns and of OVF, and the forms of a negation. -/

namespace Sys2Proof.Machine

/-! ### The word of an operation -/

/-- An OP value encodes the instruction that has it, at every type (R61, R73). -/
theorem encodes_of_op {op : Nat} {i : Ty → Instr} (hty : ∀ t, (i t).ty = t) (hop : ∀ t, (i t).op.toNat = op) :
    Claims.Encodes op i := by
  intro t
  have hword : encode (i t) = BitVec.ofNat 16 (Claims.typeField t + op) := by
    rw [← hop t, ← congrArg Claims.typeField (hty t), ← toNat_formatC, BitVec.ofNat_toNat, BitVec.setWidth_eq, encode]
  rw [← hword]
  exact decode_encode (i t)

/-! ### Exact results in and out of range -/

section Bounds
variable (w : Width)

theorem minOf_unsigned : minOf (Claims.u w) = 0 := rfl

theorem maxOf_unsigned : maxOf (Claims.u w) = 2 ^ w.bits - 1 := rfl

theorem minOf_signed : minOf (Claims.i w) = -2 ^ (w.bits - 1) := rfl

theorem maxOf_signed : maxOf (Claims.i w) = 2 ^ (w.bits - 1) - 1 := rfl

end Bounds

theorem minOf_le_maxOf (t : Ty) : minOf t ≤ maxOf t :=
  have ⟨hmin, hmax⟩ := (inRange_iff t _).1 (val_inRange t 0)
  hmin.trans hmax

theorem rangeOverflow_eq_false_iff (t : Ty) (x : Int) : rangeOverflow t x = false ↔ minOf t ≤ x ∧ x ≤ maxOf t := by
  rw [← inRange_iff, rangeOverflow, Bool.not_eq_false']

/-- An integer wraps to the one in range that is congruent to it (R8, R9). -/
theorem val_enc_eq_of_modEq {t : Ty} {x y : Int} (hy : minOf t ≤ y ∧ y ≤ maxOf t) (h : x ≡ y [ZMOD 2 ^ t.bits]) :
    val t (enc t.bits x) = y := by
  rw [enc_eq_of_modEq h]
  exact val_enc_of_inRange ((inRange_iff t y).2 hy)

theorem val_enc_modEq (t : Ty) (x : Int) : val t (enc t.bits x) ≡ x [ZMOD 2 ^ t.bits] :=
  (val_emod t _).trans (uval_enc _ _)

/-- An integer is out of range exactly when wrapping changes it. -/
theorem rangeOverflow_eq_decide_wrapped (t : Ty) (x : Int) : rangeOverflow t x = decide (x ≠ val t (enc t.bits x)) := by
  rw [Bool.eq_iff_iff, decide_eq_true_iff, rangeOverflow_iff, not_iff_not, ← inRange_iff]
  exact ⟨fun h => (val_enc_of_inRange h).symm, fun h => h ▸ val_inRange t _⟩

theorem rangeOverflow_unsigned_iff (w : Width) (x : Int) :
    rangeOverflow (Claims.u w) x = true ↔ x < 0 ∨ 2 ^ w.bits ≤ x := by
  rw [rangeOverflow_iff, minOf_unsigned, maxOf_unsigned]
  omega

theorem rangeOverflow_unsigned_natCast (w : Width) (n : Nat) :
    rangeOverflow (Claims.u w) n = decide (2 ^ w.bits ≤ n) := by
  rw [Bool.eq_iff_iff, decide_eq_true_iff, rangeOverflow_unsigned_iff, or_iff_right (Int.not_lt.2 (Int.natCast_nonneg n))]
  norm_cast

theorem rangeOverflow_signed (w : Width) (x : Int) : rangeOverflow (Claims.i w) x =
    (decide (2 ^ (w.bits - 1) ≤ x) || decide (x < -2 ^ (w.bits - 1))) := by
  rw [Bool.eq_iff_iff, Bool.or_eq_true, decide_eq_true_iff, decide_eq_true_iff, rangeOverflow_iff, minOf_signed,
    maxOf_signed]
  omega

/-! ### What add, sub and mul give, from the exact result -/

section Exact
variable {i : Instr} {n : Int}

/-- An operation with an exact result places it wrapped, with OVF when it is out of range (R100, R103, R106). -/
theorem opOut_of_exactOf {a b : Word} (h : exactOf i a b = some n) (p : Params) :
    opOut p i a b = result (enc i.ty.bits n) (rangeOverflow i.ty n) := by
  cases i with
  | add t | sub t | mul t => cases h; rfl
  | _ => cases h

/-- The state such an operation leaves, where its pattern and its OVF are known in another form. -/
theorem exec_of_exactOf {s : State} {r : Pattern i.ty.width} {ovf : Bool} (h : exactOf i s.portA s.portB = some n)
    (hr : enc i.ty.bits n = r) (hovf : rangeOverflow i.ty n = ovf) :
    exec i s = .next { s with out := { y := r.setWidth 64, ovf := ovf, ill := false } } := by
  rw [exec_eq, opOut_of_exactOf h, hr, hovf]
  rfl

end Exact

/-- A placed pattern reads back from Y (R25). -/
theorem setWidth_place (w : Width) (r : Pattern w) : (place r).setWidth w.bits = r := by
  have hle : w.bits ≤ 64 := by cases w <;> decide
  rw [place, BitVec.setWidth_setWidth_of_le r hle, BitVec.setWidth_eq]

/-! ### Patterns of sums, differences and products (R101, R104, R107) -/

section Patterns
variable (t : Ty) (a b : Pattern t.width)

theorem enc_val_add : enc t.bits (val t a + val t b) = a + b := by
  rw [enc_eq_ofInt, BitVec.ofInt_add, ← enc_eq_ofInt, ← enc_eq_ofInt, enc_val, enc_val]

theorem enc_val_sub : enc t.bits (val t a - val t b) = a - b := by
  rw [enc_eq_ofInt, Int.sub_eq_add_neg, BitVec.ofInt_add, BitVec.ofInt_neg, ← enc_eq_ofInt, ← enc_eq_ofInt, enc_val,
    enc_val, BitVec.sub_eq_add_neg]

theorem enc_val_mul : enc t.bits (val t a * val t b) = a * b := by
  rw [enc_eq_ofInt, BitVec.ofInt_mul, ← enc_eq_ofInt, ← enc_eq_ofInt, enc_val, enc_val]

end Patterns

/-! ### OVF at bit level -/

section Overflow
variable {w : Width} (a b : Pattern w)

/-- The carry out (R101). -/
theorem rangeOverflow_unsigned_add :
    rangeOverflow (Claims.u w) (uval a + uval b) = decide (2 ^ w.bits ≤ a.toNat + b.toNat) := by
  rw [uval, uval, ← Int.natCast_add, rangeOverflow_unsigned_natCast]

/-- The borrow (R104). -/
theorem rangeOverflow_unsigned_sub :
    rangeOverflow (Claims.u w) (uval a - uval b) = decide (a.toNat < b.toNat) := by
  have hborrow : uval a - uval b < 0 ↔ a.toNat < b.toNat := by
    rw [sub_neg, uval, uval, Int.ofNat_lt]
  have hlt : uval a - uval b < 2 ^ w.bits := Int.lt_of_le_of_lt (Int.sub_le_self _ (uval_nonneg b)) (uval_lt a)
  rw [Bool.eq_iff_iff, decide_eq_true_iff, rangeOverflow_unsigned_iff, hborrow]
  exact or_iff_left (Int.not_le.2 hlt)

/-- The unsigned product needs more than W bits (R107). -/
theorem rangeOverflow_unsigned_mul :
    rangeOverflow (Claims.u w) (uval a * uval b) = decide (2 ^ w.bits ≤ a.toNat * b.toNat) := by
  rw [uval, uval, ← Int.natCast_mul, rangeOverflow_unsigned_natCast]

/-- Equal operand signs with another result sign (R101): the library's signed overflow of a sum. -/
theorem rangeOverflow_signed_add :
    rangeOverflow (Claims.i w) (sval a + sval b) = ((a.msb == b.msb) && ((a + b).msb != a.msb)) := by
  have hlib : rangeOverflow (Claims.i w) (sval a + sval b) = a.saddOverflow b := by
    rw [rangeOverflow_signed, sval_eq_toInt, sval_eq_toInt, BitVec.saddOverflow]
  rw [hlib, BitVec.saddOverflow_eq]
  rfl

/-- Different operand signs with a result sign other than that of a (R104): the library's signed overflow of a
difference. -/
theorem rangeOverflow_signed_sub :
    rangeOverflow (Claims.i w) (sval a - sval b) = ((a.msb != b.msb) && ((a - b).msb != a.msb)) := by
  have hlib : rangeOverflow (Claims.i w) (sval a - sval b) = a.ssubOverflow b := by
    rw [rangeOverflow_signed, sval_eq_toInt, sval_eq_toInt, BitVec.ssubOverflow]
  rw [hlib, BitVec.ssubOverflow_eq]
  cases a.msb <;> cases b.msb <;> simp

/-- The product is not the value of its pattern (R107). -/
theorem rangeOverflow_signed_mul :
    rangeOverflow (Claims.i w) (sval a * sval b) = decide (a.toInt * b.toInt ≠ (a * b).toInt) := by
  have hwrap : val (Claims.i w) (enc w.bits (sval a * sval b)) = (a * b).toInt := by
    rw [← sval_eq_toInt]
    exact congrArg sval (enc_val_mul (Claims.i w) a b)
  rw [rangeOverflow_eq_decide_wrapped, hwrap, sval_eq_toInt, sval_eq_toInt]

end Overflow

/-! ### The double-width product (R107) -/

section DoubleWidth
variable {n : Nat}

/-- A number of 2n bits is 2^n or more exactly when its high n bits are not all zero. -/
theorem two_pow_le_toNat_iff_extractLsb'_ne_zero (p : BitVec (2 * n)) :
    2 ^ n ≤ p.toNat ↔ p.extractLsb' n n ≠ 0 := by
  have hlt : p.toNat / 2 ^ n < 2 ^ n := by
    rw [Nat.div_lt_iff_lt_mul (Nat.two_pow_pos n), ← Nat.pow_add, ← Nat.two_mul]
    exact p.isLt
  have hhigh : (p.extractLsb' n n).toNat = p.toNat / 2 ^ n := by
    rw [BitVec.extractLsb'_toNat, Nat.shiftRight_eq_div_pow, Nat.mod_eq_of_lt hlt]
  rw [← BitVec.toNat_ne_iff_ne, hhigh]
  exact (Nat.div_ne_zero_iff.trans (and_iff_right (Nat.two_pow_pos n).ne')).symm

/-- The 2n-bit product of zero-extended operands is their exact product. -/
theorem toNat_zeroExtend_mul_zeroExtend (a b : BitVec n) :
    (a.zeroExtend (2 * n) * b.zeroExtend (2 * n)).toNat = a.toNat * b.toNat := by
  have hlt : a.toNat * b.toNat < 2 ^ (2 * n) := by
    rw [Nat.two_mul, Nat.pow_add]
    exact Nat.mul_lt_mul'' a.isLt b.isLt
  have hle : n ≤ 2 * n := by omega
  rw [BitVec.toNat_mul, BitVec.toNat_setWidth_of_le hle, BitVec.toNat_setWidth_of_le hle, Nat.mod_eq_of_lt hlt]

/-- The 2n-bit product of sign-extended operands is their exact product. -/
theorem toInt_signExtend_mul_signExtend (hn : 0 < n) (a b : BitVec n) :
    (a.signExtend (2 * n) * b.signExtend (2 * n)).toInt = a.toInt * b.toInt := by
  have hlow := BitVec.le_toInt_mul_toInt (x := a) (y := b)
  have hhigh := BitVec.toInt_mul_toInt_le (x := a) (y := b)
  have hpow : (2 : Int) ^ (n * 2 - 2) < 2 ^ (2 * n - 1) := pow_lt_pow_right₀ (by decide) (by omega)
  rw [BitVec.signExtend, BitVec.signExtend, ← BitVec.ofInt_mul]
  exact BitVec.toInt_ofInt_eq_self (by omega) (by omega) (by omega)

/-- Bits that agree from bit n-1 up are those of a sign extension: dropping the high ones keeps the value. -/
theorem toInt_setWidth_eq_iff_high_bits_eq {m : Nat} (hn : 0 < n) (hnm : n ≤ m) (p : BitVec m) :
    p.toInt = (p.setWidth n).toInt ↔ ∀ k, n - 1 + k < m → p.getLsbD (n - 1 + k) = p.getLsbD (n - 1) := by
  have hmsb : (p.setWidth n).msb = p.getLsbD (n - 1) := by
    rw [BitVec.msb_eq_getLsbD_last, BitVec.getLsbD_setWidth, decide_eq_true (by omega), Bool.true_and]
  have hbit : ∀ j, j < m → ((p.setWidth n).signExtend m).getLsbD j =
      if j < n then p.getLsbD j else p.getLsbD (n - 1) := by
    intro j hj
    rw [BitVec.getLsbD_signExtend, decide_eq_true hj, Bool.true_and, hmsb]
    split
    · next h => rw [BitVec.getLsbD_setWidth, decide_eq_true h, Bool.true_and]
    · rfl
  rw [← BitVec.toInt_signExtend_of_le hnm, BitVec.toInt_inj]
  constructor
  · intro h k hk
    have := hbit (n - 1 + k) hk
    rw [← h] at this
    split at this
    · next hlt => rw [show n - 1 + k = n - 1 by omega]
    · exact this
  · refine fun h => BitVec.eq_of_getLsbD_eq fun j hj => ?_
    rw [hbit j hj]
    split
    · rfl
    · next hge =>
      have := h (j - (n - 1)) (by omega)
      rwa [show n - 1 + (j - (n - 1)) = j by omega] at this

/-- The product is not the value of its pattern exactly when the high n+1 bits of the 2n-bit product are not all equal. -/
theorem toInt_mul_ne_iff_high_bits_differ (hn : 0 < n) (a b : BitVec n) :
    let p := a.signExtend (2 * n) * b.signExtend (2 * n)
    a.toInt * b.toInt ≠ (a * b).toInt ↔ ¬∀ k, k < n + 1 → p.getLsbD (n - 1 + k) = p.getLsbD (n - 1) := by
  intro p
  have hp : p.toInt = a.toInt * b.toInt := toInt_signExtend_mul_signExtend hn a b
  have hlow : (p.setWidth n).toInt = (a * b).toInt := by
    have hle : n ≤ 2 * n := by omega
    rw [← BitVec.signExtend_eq_setWidth_of_le p hle, BitVec.toInt_signExtend_eq_toInt_bmod_of_le p hle, hp,
      BitVec.toInt_mul]
  rw [← hp, ← hlow, ne_eq, not_iff_not, toInt_setWidth_eq_iff_high_bits_eq hn (by omega)]
  exact forall_congr' fun k => imp_congr_left (by omega)

end DoubleWidth

/-! ### The forms of an operation with an exact result -/

section Forms
variable {i : Instr} {a b : Word} {n : Int}

theorem formOf_of_exactOf (h : exactOf i a b = some n) (f : Form) (p : Params) :
    formOf f p i a b = surface f i (some n) (val i.ty (enc i.ty.bits n)) (rangeOverflow i.ty n) := by
  simp only [formOf, h, opOut_of_exactOf h, outValue, result, setWidth_place]

/-- In range every form is told from the exact result, with OVF = 0. -/
theorem formOf_of_inRange (h : exactOf i a b = some n) (hn : minOf i.ty ≤ n ∧ n ≤ maxOf i.ty) (f : Form) (p : Params) :
    formOf f p i a b = surface f i (some n) n false := by
  rw [formOf_of_exactOf h, val_enc_of_inRange ((inRange_iff _ _).2 hn), (rangeOverflow_eq_false_iff _ _).2 hn]

/-- Out of range every form is told from the exact result and the wrapped one, with OVF = 1. -/
theorem formOf_of_outOfRange (h : exactOf i a b = some n) (hn : ¬(minOf i.ty ≤ n ∧ n ≤ maxOf i.ty)) (f : Form)
    (p : Params) : formOf f p i a b = surface f i (some n) (val i.ty (enc i.ty.bits n)) true := by
  rw [formOf_of_exactOf h, (rangeOverflow_iff _ _).2 hn]

/-- To saturate the wrapped result is to clamp the exact one (R186). -/
theorem saturate_wrapped (t : Ty) (n : Int) :
    saturate t n (val t (enc t.bits n)) = max (minOf t) (min n (maxOf t)) := by
  have hle := minOf_le_maxOf t
  unfold saturate
  split
  · omega
  · split
    · omega
    · rw [val_enc_of_inRange ((inRange_iff t n).2 (by omega))]
      omega

theorem formOf_saturating_of_exactOf (h : exactOf i a b = some n) (p : Params) :
    formOf .saturating p i a b = .next (.value (max (minOf i.ty) (min n (maxOf i.ty)))) := by
  rw [formOf_of_exactOf h, ← saturate_wrapped]
  cases i with
  | add t | sub t | mul t => rfl
  | _ => cases h

end Forms

/-! ### Negation (R188) -/

section Negation
variable (w : Width)

/-- The exact result of `sub.T 0, x` is the negated value of x. -/
theorem exactOf_sub_zero (t : Ty) (x : Word) : exactOf (.sub t) 0 x = some (-val t (operandB t x)) := by
  have hzero : val t (operandA t 0) = 0 := by
    rw [operandA, BitVec.ofNat_eq_ofNat, BitVec.setWidth_zero]
    rcases t with ⟨_ | _, w⟩
    · simp [val_unsigned]
    · simp [val_signed]
  rw [exactOf, exact, hzero, Int.zero_sub]

/-- MIN is its own negation modulo 2^W, for 2·MIN = -2^W. -/
theorem neg_minOf_modEq : -minOf (Claims.i w) ≡ minOf (Claims.i w) [ZMOD 2 ^ w.bits] := by
  have hpow : (2 : Int) ^ w.bits = 2 ^ (w.bits - 1) * 2 := by rw [← pow_succ, Nat.sub_add_cancel (bits_pos w)]
  refine Int.modEq_iff_dvd.2 ⟨-1, ?_⟩
  rw [minOf_signed, hpow]
  ring

/-- The negation of MIN wraps to MIN. -/
theorem val_enc_neg_minOf : val (Claims.i w) (enc w.bits (-minOf (Claims.i w))) = minOf (Claims.i w) :=
  val_enc_eq_of_modEq ⟨le_rfl, minOf_le_maxOf _⟩ (neg_minOf_modEq w)

/-- A signed value other than MIN has its negation in range. -/
theorem neg_inRange_of_ne_minOf {v : Int} (hv : minOf (Claims.i w) ≤ v ∧ v ≤ maxOf (Claims.i w))
    (hne : v ≠ minOf (Claims.i w)) : minOf (Claims.i w) ≤ -v ∧ -v ≤ maxOf (Claims.i w) := by
  rw [minOf_signed] at hne hv ⊢
  rw [maxOf_signed] at hv ⊢
  omega

/-- The negation of MIN is one above MAX. -/
theorem maxOf_lt_neg_minOf : maxOf (Claims.i w) < -minOf (Claims.i w) := by
  rw [minOf_signed, maxOf_signed, Int.neg_neg]
  exact sub_one_lt _

end Negation

/-! ### The obligations -/

/-- Settles O18: both signednesses encode the exact sum as a + b, and the range is left exactly at the carry out, or at the
library's signed overflow. -/
theorem addOverflowAtBitLevel : Obligations.AddOverflowAtBitLevel := fun w _ =>
  ⟨exec_of_exactOf rfl (enc_val_add (Claims.u w) _ _) (rangeOverflow_unsigned_add _ _),
    exec_of_exactOf rfl (enc_val_add (Claims.i w) _ _) (rangeOverflow_signed_add _ _)⟩

/-- Settles O19: both signednesses encode the exact difference as a - b, and the range is left exactly at the borrow, or at
the library's signed overflow. -/
theorem subOverflowAtBitLevel : Obligations.SubOverflowAtBitLevel := fun w _ =>
  ⟨exec_of_exactOf rfl (enc_val_sub (Claims.u w) _ _) (rangeOverflow_unsigned_sub _ _),
    exec_of_exactOf rfl (enc_val_sub (Claims.i w) _ _) (rangeOverflow_signed_sub _ _)⟩

/-- Settles O20: both signednesses encode the exact product as a * b, and the 2W-bit product of the extended operands is
exact, so its high bits tell whether the product fits. -/
theorem mulOverflowAtBitLevel : Obligations.MulOverflowAtBitLevel := by
  intro w s a b r pu ps
  refine ⟨exec_of_exactOf rfl (enc_val_mul (Claims.u w) a b) (rangeOverflow_unsigned_mul a b), ?_,
    exec_of_exactOf rfl (enc_val_mul (Claims.i w) a b) (rangeOverflow_signed_mul a b),
    toInt_mul_ne_iff_high_bits_differ (bits_pos w) a b⟩
  rw [← toNat_zeroExtend_mul_zeroExtend a b]
  exact two_pow_le_toNat_iff_extractLsb'_ne_zero pu

/-- Settles O21: each of the three operations gives its exact result wrapped, which is in range, congruent to it, and equal to
it where it is in range. -/
theorem arithmeticLaws : Obligations.ArithmeticLaws := by
  intro p t a b x y i n hi o v
  obtain ⟨hexact, hty⟩ : exactOf i a b = some n ∧ i.ty = t := by
    obtain h | h | h := hi <;> cases h <;> exact ⟨rfl, rfl⟩
  subst hty
  have ho : o = result (enc i.ty.bits n) (rangeOverflow i.ty n) :=
    (coreFn_encode p i a b).trans (opOut_of_exactOf hexact p)
  have hovf : o.ovf = false ↔ minOf i.ty ≤ n ∧ n ≤ maxOf i.ty := by
    rw [ho]
    exact rangeOverflow_eq_false_iff i.ty n
  have hv : v = val i.ty (enc i.ty.bits n) := by
    simp only [v, ho, result, setWidth_place]
  obtain ⟨hmin, hmax⟩ := (inRange_iff i.ty v).1 (val_inRange i.ty _)
  refine ⟨hovf, fun h => ?_, hmin, hmax, ?_⟩
  · rw [hv, val_enc_of_inRange ((inRange_iff _ _).2 (hovf.1 h))]
  · rw [hv]
    exact Int.emod_eq_emod_iff_emod_sub_eq_zero.1 (val_enc_modEq i.ty n)

/-- Settles O48: the exact result of `sub.T 0, x` is -x. Of the signed values only MIN has its negation out of range, one
above MAX; of the unsigned ones only 0 has it in range. -/
theorem negationForms : Obligations.NegationForms := by
  refine ⟨fun _ _ _ _ => rfl, fun p w x => ?signed, fun p w x => ?unsigned⟩
  case signed =>
    intro t v
    have hexact : exactOf (.sub t) 0 x = some (-v) := exactOf_sub_zero t x
    refine ⟨fun hne => ?_, fun hv => ?_⟩
    · have hv := (inRange_iff t v).1 (val_inRange t (operandB t x))
      exact formOf_of_inRange hexact (neg_inRange_of_ne_minOf w hv hne) .overflowing p
    · rw [hv] at hexact
      have habove : maxOf t < -minOf t := maxOf_lt_neg_minOf w
      have hform : ∀ f, negForm f p t x = surface f (.sub t) (some (-minOf t)) (minOf t) true := fun f =>
        (formOf_of_outOfRange hexact (fun h => Int.not_le.2 habove h.2) f p).trans
          (congrArg (fun u => surface f (.sub t) _ u true) (val_enc_neg_minOf w))
      have hclamp : max (minOf t) (min (-minOf t) (maxOf t)) = maxOf t := by
        rw [min_eq_right habove.le, max_eq_right (minOf_le_maxOf t)]
      refine ⟨hform _, hform _, ?_, hform _, _, hform _⟩
      rw [← hclamp]
      exact formOf_saturating_of_exactOf hexact p
  case unsigned =>
    intro t
    have hexact : exactOf (.sub t) 0 x = some (-uval (x.setWidth w.bits)) := exactOf_sub_zero t x
    refine ⟨fun hzero => ?_, fun hne => ?_⟩
    · rw [hzero] at hexact
      exact formOf_of_inRange hexact ⟨le_rfl, minOf_le_maxOf t⟩ .checked p
    · have hneg : -uval (x.setWidth w.bits) < minOf t :=
        Int.neg_neg_of_pos (Int.natCast_pos.2 (Nat.pos_of_ne_zero (BitVec.toNat_ne_iff_ne.2 hne)))
      have hclamp : max (minOf t) (min (-uval (x.setWidth w.bits)) (maxOf t)) = 0 :=
        max_eq_left ((min_le_left _ _).trans hneg.le)
      refine ⟨formOf_of_outOfRange hexact (fun h => Int.not_le.2 hneg h.1) .checked p, ?_⟩
      rw [← hclamp]
      exact formOf_saturating_of_exactOf hexact p

/-- Settles O15: the exact sum of the operands' values, with the frame of every instruction. -/
theorem addGivesWrappedSum : Obligations.AddGivesWrappedSum :=
  ⟨encodes_of_op (fun _ => rfl) (fun _ => rfl), fun _ _ => exec_of_exactOf rfl rfl rfl⟩

/-- Settles O16: the exact difference of the operands' values, with the frame of every instruction. -/
theorem subGivesWrappedDifference : Obligations.SubGivesWrappedDifference :=
  ⟨encodes_of_op (fun _ => rfl) (fun _ => rfl), fun _ _ => exec_of_exactOf rfl rfl rfl⟩

/-- Settles O17: the exact product of the operands' values, with the frame of every instruction. -/
theorem mulGivesWrappedProduct : Obligations.MulGivesWrappedProduct :=
  ⟨encodes_of_op (fun _ => rfl) (fun _ => rfl), fun _ _ => exec_of_exactOf rfl rfl rfl⟩

end Sys2Proof.Machine
end

section
/-! SUPPORT. The shift and rotate statements (spec 41_shift_rotate.md R120 to R127): the shifts and rotations as the library's,
their bits, and the population count under a move of the bits. -/

namespace Sys2Proof.Machine

/-! ### The state an operation leaves, and the amount -/

/-- An instruction whose operation places a pattern leaves the state with its outputs driven (R22, R25). -/
theorem exec_of_opOut {i : Instr} {s : State} {n : Nat} {r : BitVec n} {ovf : Bool}
    (h : opOut s.params i s.portA s.portB = result r ovf) :
    exec i s = .next { s with out := { y := r.setWidth 64, ovf := ovf, ill := false } } := by
  rw [exec_eq, h]
  rfl

theorem maskedAmount_eq (t : Ty) (b : Word) : maskedAmount t b = b.toNat % 2 ^ 32 % t.bits := by
  rw [maskedAmount, amount, BitVec.toNat_setWidth]

theorem amountOverflow_eq (t : Ty) (b : Word) : amountOverflow t b = decide (t.bits ≤ b.toNat % 2 ^ 32) := by
  rw [amountOverflow, amount, BitVec.toNat_setWidth]

/-! ### The shifts as the library's -/

section Shifts
variable {w : Width} (a : Pattern w) (s : Nat)

theorem shlValue_eq_shiftLeft : shlValue w a s = a <<< s := by
  rw [← uval_inj, shlValue, uval_enc, uval, uval, BitVec.toNat_shiftLeft, Nat.shiftLeft_eq]
  norm_cast

theorem val_ushiftRight : val (Claims.u w) (a >>> s) = val (Claims.u w) a / 2 ^ s := by
  rw [val_unsigned, val_unsigned, BitVec.toNat_ushiftRight, Nat.shiftRight_eq_div_pow]
  norm_cast

theorem val_sshiftRight : val (Claims.i w) (a.sshiftRight s) = val (Claims.i w) a / 2 ^ s := by
  rw [val_signed, val_signed, BitVec.toInt_sshiftRight, Int.shiftRight_eq_div_pow]
  norm_cast

theorem shrValue_unsigned_eq_ushiftRight : shrValue (Claims.u w) a s = a >>> s := by
  rw [shrValue, ← val_ushiftRight, enc_val]

theorem shrValue_signed_eq_sshiftRight : shrValue (Claims.i w) a s = a.sshiftRight s := by
  rw [shrValue, ← val_sshiftRight, enc_val]

/-- The bits of `shl`: those of a moved up, and zeros below them (R122). -/
theorem getLsbD_shlValue {i : Nat} (hi : i < w.bits) :
    (shlValue w a s).getLsbD i = if i < s then false else a.getLsbD (i - s) := by
  rw [shlValue_eq_shiftLeft, BitVec.getLsbD_shiftLeft]
  split <;> simp [*]

end Shifts

section Shr
variable (t : Ty) (a : Pattern t.width) (s : Nat)

/-- The quotient needs no wrapping: it is the value of the library's shift (R123). -/
theorem val_shrValue : val t (shrValue t a s) = val t a / 2 ^ s := by
  rcases t with ⟨_ | _, w⟩
  · rw [shrValue_unsigned_eq_ushiftRight, val_ushiftRight]
  · rw [shrValue_signed_eq_sshiftRight, val_sshiftRight]

/-- The bits of `shr`: those of a moved down, and above them zeros or copies of the top bit (R124). -/
theorem getLsbD_shrValue {i : Nat} (hi : i < t.bits) : (shrValue t a s).getLsbD i =
    if i < t.bits - s then a.getLsbD (i + s) else decide (t.sgn = .signed) && a.getLsbD (t.bits - 1) := by
  have hfit : s + i < t.bits ↔ i < t.bits - s := by omega
  rcases t with ⟨_ | _, w⟩
  · rw [shrValue_unsigned_eq_ushiftRight, BitVec.getLsbD_ushiftRight, Nat.add_comm i s]
    split
    · rfl
    · next h => exact BitVec.getLsbD_of_ge a _ (Nat.le_of_not_lt (hfit.not.2 h))
  · rw [shrValue_signed_eq_sshiftRight, BitVec.getLsbD_sshiftRight, BitVec.msb_eq_getLsbD_last, Nat.add_comm i s]
    simp only [Ty.bits] at hfit hi ⊢
    simp [hfit, hi]

end Shr

/-! ### The rotations, bit by bit and as the library's -/

theorem getLsbD_patternOf_of_lt {n i : Nat} (f : Nat → Bool) (hi : i < n) : (patternOf n f).getLsbD i = f i := by
  rw [getLsbD_patternOf, decide_eq_true hi, Bool.true_and]

/-- The residue of i - s as an integer is that of i + n - s as a natural number, which does not go below 0. -/
theorem toNat_sub_emod {n s : Nat} (hs : s ≤ n) (i : Nat) : (((i : Int) - s) % n).toNat = (i + n - s) % n := by
  have hadd : ((i + n - s : Nat) : Int) = (i - s) + n := by omega
  have hmod : ((i : Int) - s) % n = ((i + n - s) % n : Nat) := by
    rw [Int.natCast_mod, hadd, Int.add_emod_right]
  rw [hmod, Int.toNat_natCast]

section Rotations
variable {w : Width} (a : Pattern w)

theorem getLsbD_rotlValue (s : Nat) {i : Nat} (hi : i < w.bits) :
    (rotlValue w a s).getLsbD i = a.getLsbD ((i + w.bits - s) % w.bits) :=
  getLsbD_patternOf_of_lt _ hi

theorem getLsbD_rotrValue (s : Nat) {i : Nat} (hi : i < w.bits) :
    (rotrValue w a s).getLsbD i = a.getLsbD ((i + s) % w.bits) :=
  getLsbD_patternOf_of_lt _ hi

theorem rotlValue_eq_rotateLeft (amt : Nat) : rotlValue w a (amt % w.bits) = a.rotateLeft amt := by
  have hs : amt % w.bits < w.bits := Nat.mod_lt _ (bits_pos w)
  refine BitVec.eq_of_getLsbD_eq fun i hi => ?_
  rw [getLsbD_rotlValue a _ hi, BitVec.getLsbD_rotateLeft, decide_eq_true hi, Bool.true_and]
  by_cases h : i < amt % w.bits
  · rw [decide_eq_true h, cond_true, Nat.mod_eq_of_lt (by omega)]
    congr 1
    omega
  · rw [decide_eq_false h, cond_false, show i + w.bits - amt % w.bits = i - amt % w.bits + w.bits by omega,
      Nat.add_mod_right, Nat.mod_eq_of_lt (by omega)]

theorem rotrValue_eq_rotateRight (amt : Nat) : rotrValue w a (amt % w.bits) = a.rotateRight amt := by
  have hs : amt % w.bits < w.bits := Nat.mod_lt _ (bits_pos w)
  refine BitVec.eq_of_getLsbD_eq fun i hi => ?_
  rw [getLsbD_rotrValue a _ hi, BitVec.getLsbD_rotateRight, decide_eq_true hi, Bool.true_and]
  by_cases h : i < w.bits - amt % w.bits
  · rw [decide_eq_true h, cond_true, Nat.mod_eq_of_lt (by omega), Nat.add_comm]
  · rw [decide_eq_false h, cond_false, show i + amt % w.bits = i - (w.bits - amt % w.bits) + w.bits by omega,
      Nat.add_mod_right, Nat.mod_eq_of_lt (by omega)]

/-- A rotation left by s is the one right by W - s (R127, law 1). -/
theorem rotlValue_eq_rotrValue {s : Nat} (hs : s ≤ w.bits) :
    rotlValue w a s = rotrValue w a ((w.bits - s) % w.bits) := by
  refine BitVec.eq_of_getLsbD_eq fun i hi => ?_
  rw [getLsbD_rotlValue a _ hi, getLsbD_rotrValue a _ hi, Nat.add_mod_mod, Nat.add_sub_assoc hs]

/-- A rotation right undoes the one left by the same amount (R127, law 2). -/
theorem rotrValue_rotlValue {s : Nat} (hs : s ≤ w.bits) : rotrValue w (rotlValue w a s) s = a := by
  refine BitVec.eq_of_getLsbD_eq fun i hi => ?_
  rw [getLsbD_rotrValue _ _ hi, getLsbD_rotlValue a _ (Nat.mod_lt _ (bits_pos w)), Nat.add_sub_assoc hs, Nat.mod_add_mod,
    show i + s + (w.bits - s) = i + w.bits by omega, Nat.add_mod_right, Nat.mod_eq_of_lt hi]

/-- A rotation by s ≠ 0 is made of the two shifts (R127, law 4). -/
theorem rotlValue_eq_shlValue_or_shrValue {s : Nat} (h0 : s ≠ 0) (hs : s < w.bits) :
    rotlValue w a s = shlValue w a s ||| shrValue (Claims.u w) a ((w.bits - s) % w.bits) := by
  rw [shlValue_eq_shiftLeft, shrValue_unsigned_eq_ushiftRight, Nat.mod_eq_of_lt (by omega : w.bits - s < w.bits)]
  have h := rotlValue_eq_rotateLeft a s
  rwa [BitVec.rotateLeft_def, Nat.mod_eq_of_lt hs] at h

end Rotations

/-! ### The population count under a move of the bits -/

theorem countTrue_eq_sum (f : Nat → Bool) (n : Nat) : countTrue f n = ∑ i ∈ Finset.range n, (f i).toNat := by
  induction n with
  | zero => rfl
  | succ n ih => rw [countTrue, ih, Finset.sum_range_succ]

/-- A pattern that takes its bits from different positions of another has the same number of 1 bits. -/
theorem onesCount_patternOf_of_injOn {n : Nat} (a : BitVec n) {e : Nat → Nat}
    (hmaps : Set.MapsTo e (Finset.range n) (Finset.range n)) (hinj : Set.InjOn e (Finset.range n)) :
    onesCount (patternOf n fun i => a.getLsbD (e i)) = onesCount a := by
  rw [onesCount, onesCount, countTrue_eq_sum, countTrue_eq_sum]
  refine Finset.sum_nbij e hmaps hinj (Finset.surjOn_of_injOn_of_card_le e hmaps hinj le_rfl) fun i hi => ?_
  rw [getLsbD_patternOf_of_lt _ (Finset.mem_range.1 hi)]

theorem onesCount_rotrValue {w : Width} (a : Pattern w) (s : Nat) : onesCount (rotrValue w a s) = onesCount a := by
  refine onesCount_patternOf_of_injOn a (fun i _ => Finset.mem_coe.2 (Finset.mem_range.2 (Nat.mod_lt _ (bits_pos w))))
    fun i hi j hj h => ?_
  have hmod : i ≡ j [MOD w.bits] := Nat.ModEq.add_right_cancel' s h
  exact hmod.eq_of_lt_of_lt (Finset.mem_range.1 hi) (Finset.mem_range.1 hj)

theorem onesCount_rotlValue {w : Width} (a : Pattern w) {s : Nat} (hs : s ≤ w.bits) :
    onesCount (rotlValue w a s) = onesCount a := by
  rw [rotlValue_eq_rotrValue a hs, onesCount_rotrValue]

/-! ### The obligations -/

/-- Settles O22: `shl` wraps a times the power of two, which is the library's left shift. -/
theorem shlShiftsByTheMaskedAmount : Obligations.ShlShiftsByTheMaskedAmount := by
  refine ⟨encodes_of_op (fun _ => rfl) (fun _ => rfl), fun t s => ?_⟩
  refine ⟨shlValue t.width (s.portA.setWidth t.bits) (s.portB.toNat % 2 ^ 32 % t.bits), exec_of_opOut ?_, uval_enc _ _,
    fun i hi => getLsbD_shlValue _ _ hi⟩
  rw [← maskedAmount_eq, ← amountOverflow_eq]
  rfl

/-- Settles O23: `shr` is floor division, which is the library's logical or arithmetic right shift. -/
theorem shrShiftsByTheMaskedAmount : Obligations.ShrShiftsByTheMaskedAmount := by
  refine ⟨encodes_of_op (fun _ => rfl) (fun _ => rfl), fun t s => ?_⟩
  refine ⟨shrValue t (s.portA.setWidth t.bits) (s.portB.toNat % 2 ^ 32 % t.bits), exec_of_opOut ?_, val_shrValue t _ _,
    fun i hi => getLsbD_shrValue t _ _ hi⟩
  rw [← maskedAmount_eq, ← amountOverflow_eq]
  rfl

/-- Settles O24: the rotations are the library's, and move every bit by the masked amount around the end. -/
theorem rotationsMoveEveryBit : Obligations.RotationsMoveEveryBit := by
  refine ⟨encodes_of_op (fun _ => rfl) (fun _ => rfl), encodes_of_op (fun _ => rfl) (fun _ => rfl), ?_⟩
  intro t s a amt
  have hl : rotlValue t.width a (amt % t.bits) = a.rotateLeft amt := rotlValue_eq_rotateLeft a amt
  have hr : rotrValue t.width a (amt % t.bits) = a.rotateRight amt := rotrValue_eq_rotateRight a amt
  have hamt : maskedAmount t s.portB = amt % t.bits := maskedAmount_eq t s.portB
  have hs : maskedAmount t s.portB < t.bits := Nat.mod_lt _ (bits_pos t.width)
  rw [← hl, ← hr, ← hamt]
  refine ⟨exec_of_opOut rfl, exec_of_opOut rfl, fun i hi => ⟨?_, getLsbD_rotrValue a _ hi⟩⟩
  rw [toNat_sub_emod hs.le]
  exact getLsbD_rotlValue a _ hi

/-- Settles O25: the four laws hold of every masked amount. -/
theorem rotationLaws : Obligations.RotationLaws := by
  intro w a amt s
  have hs : s < w.bits := Nat.mod_lt _ (bits_pos w)
  exact ⟨rotlValue_eq_rotrValue a hs.le, rotrValue_rotlValue a hs.le, onesCount_rotlValue a hs.le, onesCount_rotrValue a s,
    fun h0 => rotlValue_eq_shlValue_or_shrValue a h0 hs⟩

end Sys2Proof.Machine
end

section
/-! SUPPORT. The bit count statements (spec 42_bitcount.md R140 to R147): what bounds the two searches, the counts read off the
bits of a pattern, and the laws between them. -/

namespace Sys2Proof.Machine

/-! ### The searches for an index -/

/-- The highest index found is below a bound exactly when nothing is found from the bound up. -/
theorem highestTrue_lt_iff {f : Nat → Bool} {n k : Nat} :
    (∀ m, highestTrue f n = some m → m < k) ↔ ∀ i, i < n → k ≤ i → f i = false := by
  induction n with
  | zero => simp [highestTrue]
  | succ n ih =>
    rw [Nat.forall_lt_succ_right, ← ih, highestTrue]
    cases hn : f n with
    | false => simp
    | true =>
      have hbelow : n < k → ∀ m, highestTrue f n = some m → m < k :=
        fun h => ih.2 fun i hi hk => absurd (hk.trans_lt hi) h.not_gt
      simpa using hbelow

theorem lowestTrue_succ (f : Nat → Bool) (n : Nat) :
    lowestTrue f (n + 1) = (lowestTrue f n).or (if f n then some n else none) := by
  rw [lowestTrue]
  cases lowestTrue f n <;> rfl

/-- The lowest index found is at or above a bound exactly when nothing is found below the bound. -/
theorem le_lowestTrue_iff {f : Nat → Bool} {n k : Nat} :
    (∀ m, lowestTrue f n = some m → k ≤ m) ↔ ∀ i, i < n → i < k → f i = false := by
  induction n with
  | zero => simp [lowestTrue]
  | succ n ih =>
    rw [Nat.forall_lt_succ_right, ← ih, lowestTrue_succ]
    cases hl : lowestTrue f n with
    | some j =>
      have hj : j < n := lowestTrue_lt hl
      have hbelow : k ≤ j → n < k → f n = false := fun h hk => absurd (hk.trans_le h) hj.not_gt
      simpa using hbelow
    | none => cases hn : f n <;> simp

/-! ### The zero counts of a pattern -/

section ZeroCounts
variable {n k i : Nat} {p : BitVec n}

/-- A pattern has at least k trailing zeros exactly when its bits below k are 0. -/
theorem le_trailingZeros_iff (hk : k ≤ n) : k ≤ trailingZeros p ↔ ∀ i, i < n → i < k → p.getLsbD i = false := by
  rw [← le_lowestTrue_iff, trailingZeros]
  cases lowestTrue p.getLsbD n with
  | none => simp [hk]
  | some m => simp

/-- A pattern has at least k leading zeros exactly when its k top bits are 0. -/
theorem le_leadingZeros_iff (hk : k ≤ n) :
    k ≤ leadingZeros p ↔ ∀ i, i < n → n - k ≤ i → p.getLsbD i = false := by
  rw [← highestTrue_lt_iff, leadingZeros]
  cases hm : highestTrue p.getLsbD n with
  | none => simp [hk]
  | some m =>
    have hlt : m < n := highestTrue_lt_iff.2 (fun i hi hi' => absurd hi hi'.not_gt) m hm
    simp only [Option.some.injEq, forall_eq']
    omega

/-- The trailing zeros end at or below every 1 bit. -/
theorem trailingZeros_le_of_getLsbD (h : p.getLsbD i = true) : trailingZeros p ≤ i := by
  by_contra hlt
  have hi := (le_trailingZeros_iff (trailingZeros_le p)).1 le_rfl i (BitVec.lt_of_getLsbD h) (Nat.lt_of_not_le hlt)
  exact Bool.false_ne_true (hi.symm.trans h)

/-- The leading zeros begin above every 1 bit. -/
theorem lt_sub_leadingZeros_of_getLsbD (h : p.getLsbD i = true) : i < n - leadingZeros p := by
  by_contra hle
  have hi := (le_leadingZeros_iff (leadingZeros_le p)).1 le_rfl i (BitVec.lt_of_getLsbD h) (Nat.le_of_not_lt hle)
  exact Bool.false_ne_true (hi.symm.trans h)

theorem eq_zero_iff_getLsbD : p = 0 ↔ ∀ i, i < n → p.getLsbD i = false :=
  ⟨fun h _ _ => h ▸ BitVec.getLsbD_zero,
    fun h => BitVec.eq_of_getLsbD_eq fun i hi => (h i hi).trans BitVec.getLsbD_zero.symm⟩

/-- Only 0 has as many trailing zeros as bits (R147, law 2). -/
theorem trailingZeros_eq_iff_eq_zero : trailingZeros p = n ↔ p = 0 := by
  rw [← (trailingZeros_le p).ge_iff_eq, le_trailingZeros_iff le_rfl, eq_zero_iff_getLsbD]
  exact forall₂_congr fun _ hi => forall_prop_of_true hi

/-- Only 0 has as many leading zeros as bits (R147, law 2). -/
theorem leadingZeros_eq_iff_eq_zero : leadingZeros p = n ↔ p = 0 := by
  rw [← (leadingZeros_le p).ge_iff_eq, le_leadingZeros_iff le_rfl, eq_zero_iff_getLsbD]
  exact forall₂_congr fun i _ => forall_prop_of_true ((Nat.sub_self n).trans_le i.zero_le)

theorem trailingZeros_eq_of_lowest (h : p.getLsbD i = true) (hbelow : ∀ j, j < i → p.getLsbD j = false) :
    trailingZeros p = i :=
  le_antisymm (trailingZeros_le_of_getLsbD h)
    ((le_trailingZeros_iff (BitVec.lt_of_getLsbD h).le).2 fun j _ hj => hbelow j hj)

theorem leadingZeros_eq_of_highest (h : p.getLsbD i = true) (habove : ∀ j, i < j → j < n → p.getLsbD j = false) :
    leadingZeros p = n - 1 - i := by
  have hlt : i < n - leadingZeros p := lt_sub_leadingZeros_of_getLsbD h
  have hle : n - 1 - i ≤ leadingZeros p :=
    (le_leadingZeros_iff (by omega)).2 fun j hj hij => habove j (by omega) hj
  omega

/-- The zero counts read off the bits, which `b` names: both are n where every bit is 0, and otherwise the leading zeros stand
above the highest 1 bit and the trailing ones below the lowest (R142, R143). -/
theorem zeroCounts_of_bits {b : Nat → Bool} (hb : ∀ i, i < n → p.getLsbD i = b i) :
    ((∀ i, i < n → b i = false) → leadingZeros p = n ∧ trailingZeros p = n) ∧
    (∀ m, m < n → b m = true →
      ((∀ i, m < i → i < n → b i = false) → leadingZeros p = n - 1 - m) ∧
      ((∀ i, i < m → b i = false) → trailingZeros p = m)) := by
  refine ⟨fun h => ?_, fun m hm h => ⟨fun habove => ?_, fun hbelow => ?_⟩⟩
  · rw [leadingZeros_eq_iff_eq_zero, trailingZeros_eq_iff_eq_zero, and_self, eq_zero_iff_getLsbD]
    exact fun i hi => (hb i hi).trans (h i hi)
  · exact leadingZeros_eq_of_highest ((hb m hm).trans h) fun i hi hin => (hb i hin).trans (habove i hi hin)
  · exact trailingZeros_eq_of_lowest ((hb m hm).trans h) fun i hi => (hb i (hi.trans hm)).trans (hbelow i hi)

/-- Reversal exchanges leading and trailing zeros (R147, law 5). -/
theorem leadingZeros_eq_trailingZeros_patternOf (p : BitVec n) :
    leadingZeros p = trailingZeros (patternOf n fun i => p.getLsbD (n - 1 - i)) := by
  refine eq_of_forall_le_iff fun k => ?_
  by_cases hk : k ≤ n
  · rw [le_leadingZeros_iff hk, le_trailingZeros_iff hk]
    refine ⟨fun h i hi hik => ?_, fun h i hi hik => ?_⟩
    · rw [getLsbD_patternOf_of_lt _ hi, h _ (by omega) (by omega)]
    · have hbit := h (n - 1 - i) (by omega) (by omega)
      rwa [getLsbD_patternOf_of_lt _ (by omega), show n - 1 - (n - 1 - i) = i by omega] at hbit
  · exact iff_of_false (fun h => hk (h.trans (leadingZeros_le _))) fun h => hk (h.trans (trailingZeros_le _))

end ZeroCounts

/-! ### The population counts -/

theorem onesCount_eq_sum {n : Nat} (p : BitVec n) : onesCount p = ∑ i ∈ Finset.range n, (p.getLsbD i).toNat :=
  countTrue_eq_sum _ _

/-- Every bit is counted by one of the two population counts (R147, law 1). -/
theorem onesCount_add_zerosCount {n : Nat} (p : BitVec n) : onesCount p + zerosCount p = n := by
  have hbit : ∀ i ∈ Finset.range n, (p.getLsbD i).toNat + ((~~~p).getLsbD i).toNat = 1 := by
    intro i hi
    rw [BitVec.getLsbD_not, decide_eq_true (Finset.mem_range.1 hi)]
    cases p.getLsbD i <;> rfl
  calc onesCount p + zerosCount p
      = ∑ i ∈ Finset.range n, ((p.getLsbD i).toNat + ((~~~p).getLsbD i).toNat) := by
        rw [zerosCount, onesCount_eq_sum, onesCount_eq_sum, Finset.sum_add_distrib]
    _ = ∑ _i ∈ Finset.range n, 1 := Finset.sum_congr rfl hbit
    _ = n := by simp

/-- The 1 bits stand between the trailing and the leading zeros, which bounds their number (R147, law 4). -/
theorem onesCount_le {n : Nat} (p : BitVec n) : onesCount p ≤ n - leadingZeros p - trailingZeros p := by
  have hsub : Finset.Ico (trailingZeros p) (n - leadingZeros p) ⊆ Finset.range n := fun i hi =>
    Finset.mem_range.2 ((Finset.mem_Ico.1 hi).2.trans_le (Nat.sub_le _ _))
  have hout : ∀ i ∈ Finset.range n, i ∉ Finset.Ico (trailingZeros p) (n - leadingZeros p) → (p.getLsbD i).toNat = 0 := by
    intro i _ hi
    rw [Bool.toNat_eq_zero, ← Bool.not_eq_true]
    exact fun h => hi (Finset.mem_Ico.2 ⟨trailingZeros_le_of_getLsbD h, lt_sub_leadingZeros_of_getLsbD h⟩)
  calc onesCount p
      = ∑ i ∈ Finset.Ico (trailingZeros p) (n - leadingZeros p), (p.getLsbD i).toNat := by
        rw [onesCount_eq_sum, Finset.sum_subset hsub hout]
    _ ≤ (Finset.Ico (trailingZeros p) (n - leadingZeros p)).card • 1 :=
        Finset.sum_le_card_nsmul _ _ _ fun i _ => Bool.toNat_le _
    _ = n - leadingZeros p - trailingZeros p := by rw [smul_eq_mul, mul_one, Nat.card_Ico]

/-- A pattern other than 0 has a 1 bit that neither its leading nor its trailing zeros reach. -/
theorem leadingZeros_add_trailingZeros_lt {n : Nat} {p : BitVec n} (h : p ≠ 0) : leadingZeros p + trailingZeros p < n := by
  obtain ⟨i, -, hi⟩ : ∃ i, ∃ _ : i < n, p.getLsbD i = true := by
    by_contra hne
    exact h (eq_zero_iff_getLsbD.2 fun i hi => Bool.eq_false_iff.2 fun hbit => hne ⟨i, hi, hbit⟩)
  have hlow := trailingZeros_le_of_getLsbD hi
  have hhigh := lt_sub_leadingZeros_of_getLsbD hi
  omega

/-! ### The population count of the reversals -/

/-- A pattern that takes its bits from the positions an involution gives has the same number of 1 bits. -/
theorem onesCount_patternOf_of_involution {n : Nat} (a : BitVec n) {e : Nat → Nat} (hlt : ∀ i, i < n → e i < n)
    (hinv : ∀ i, i < n → e (e i) = i) : onesCount (patternOf n fun i => a.getLsbD (e i)) = onesCount a := by
  have hleft : Set.LeftInvOn e e (Finset.range n) := fun i hi => hinv i (Finset.mem_range.1 hi)
  exact onesCount_patternOf_of_injOn a (fun i hi => Finset.mem_range.2 (hlt i (Finset.mem_range.1 hi))) hleft.injOn

section Reversals
variable {w : Width} (a : Pattern w)

/-- `rbit` keeps the population count (R147, law 6). -/
theorem onesCount_rbitValue : onesCount (rbitValue w a) = onesCount a :=
  onesCount_patternOf_of_involution a (fun i hi => by omega) fun i hi => by omega

/-- `bswap` keeps the population count (R147, law 6). -/
theorem onesCount_bswapValue : onesCount (bswapValue w a) = onesCount a :=
  have hbits := bits_eq_mul_bytes w
  onesCount_patternOf_of_involution a (fun i hi => by omega) fun i hi => by omega

end Reversals

/-! ### The count operations on the machine -/

theorem bits_le_port (w : Width) : w.bits ≤ 64 := by
  cases w <;> decide

theorem getLsbD_operandA {t : Ty} {i : Nat} (hi : i < t.bits) (x : Word) : (operandA t x).getLsbD i = x.getLsbD i := by
  rw [operandA, BitVec.getLsbD_setWidth, decide_eq_true hi, Bool.true_and]

/-- The operand in the complement of a port word is the complement of the operand. -/
theorem operandA_not (t : Ty) (x : Word) : operandA t (~~~x) = ~~~operandA t x :=
  BitVec.setWidth_not (bits_le_port t.width)

/-- A count of at most W fits its W bits, so it is placed as its number (R25). -/
theorem place_enc_of_le {w : Width} {c : Nat} (hc : c ≤ w.bits) : place (enc w.bits c) = BitVec.ofNat 64 c := by
  rw [place, enc_eq_ofInt, BitVec.ofInt_natCast, BitVec.setWidth_ofNat_of_le_of_lt (bits_le_port w)
    (hc.trans_lt Nat.lt_two_pow_self)]

/-- An instruction whose operation is a count of at most W leaves the state with that number driven and OVF = 0. -/
theorem exec_of_countResult {i : Instr} {s : State} {t : Ty} {c : Nat}
    (h : opOut s.params i s.portA s.portB = countResult t c) (hc : c ≤ t.bits) :
    exec i s = .next { s with out := { y := BitVec.ofNat 64 c, ovf := false, ill := false } } := by
  rw [← place_enc_of_le hc]
  exact exec_of_opOut h

/-! ### The obligations -/

/-- Settles O26: the population count is the sum of the operand's bits, and with the count of zeros it makes W. -/
theorem populationCounts : Obligations.PopulationCounts := by
  refine ⟨encodes_of_op (fun _ => rfl) (fun _ => rfl), encodes_of_op (fun _ => rfl) (fun _ => rfl), ?_⟩
  intro t s c
  have hones : onesCount (operandA t s.portA) = c :=
    (onesCount_eq_sum _).trans (Finset.sum_congr rfl fun i hi => by rw [getLsbD_operandA (Finset.mem_range.1 hi)])
  have hsum : onesCount (operandA t s.portA) + zerosCount (operandA t s.portA) = t.bits := onesCount_add_zerosCount _
  have hzeros : zerosCount (operandA t s.portA) = t.bits - c := by omega
  rw [← hzeros, ← hones]
  exact ⟨exec_of_countResult rfl (countTrue_le _ _), exec_of_countResult rfl (countTrue_le _ _)⟩

/-- Settles O27: the two zero counts of the operand, read off its bits. -/
theorem leadingAndTrailingZeros : Obligations.LeadingAndTrailingZeros := by
  refine ⟨encodes_of_op (fun _ => rfl) (fun _ => rfl), encodes_of_op (fun _ => rfl) (fun _ => rfl), fun t s => ?_⟩
  exact ⟨leadingZeros (operandA t s.portA), trailingZeros (operandA t s.portA),
    exec_of_countResult rfl (leadingZeros_le _), exec_of_countResult rfl (trailingZeros_le _),
    zeroCounts_of_bits fun i hi => getLsbD_operandA hi _⟩

/-- Settles O28: the two zero counts of the complement, whose bits are those of the operand inverted. -/
theorem leadingAndTrailingOnes : Obligations.LeadingAndTrailingOnes := by
  refine ⟨encodes_of_op (fun _ => rfl) (fun _ => rfl), encodes_of_op (fun _ => rfl) (fun _ => rfl), fun t s => ?_⟩
  have hbits : ∀ i, i < t.bits → (~~~operandA t s.portA).getLsbD i = !s.portA.getLsbD i := by
    intro i hi
    rw [BitVec.getLsbD_not, decide_eq_true hi, Bool.true_and, getLsbD_operandA hi]
  refine ⟨leadingZeros (~~~operandA t s.portA), trailingZeros (~~~operandA t s.portA),
    exec_of_countResult rfl (leadingZeros_le _), exec_of_countResult rfl (trailingZeros_le _), ?_, ?_, ?_⟩
  · rw [← operandA_not]
    exact exec_of_countResult rfl (leadingZeros_le _)
  · rw [← operandA_not]
    exact exec_of_countResult rfl (trailingZeros_le _)
  · simpa using zeroCounts_of_bits hbits

/-- Settles O29: the laws hold of every pattern; the bound for a ≠ 0 holds because the 1 bits stand between the trailing and
the leading zeros. -/
theorem countLaws : Obligations.CountLaws := by
  intro w a
  refine ⟨onesCount_add_zerosCount a, leadingZeros_eq_iff_eq_zero, trailingZeros_eq_iff_eq_zero, rfl, rfl, fun h => ?_,
    leadingZeros_eq_trailingZeros_patternOf a, onesCount_rbitValue a, onesCount_bswapValue a,
    fun s hs => ⟨onesCount_rotlValue a hs.le, onesCount_rotrValue a s⟩⟩
  have hlt := leadingZeros_add_trailingZeros_lt h
  have hones := onesCount_le a
  omega

end Sys2Proof.Machine
end

section
/-! SUPPORT. The bit order and byte order statements (spec 43_bitorder_bytes.md R160 to R166): where the reversals move bits
and bytes, the native bytes of the endian conversions, and that each of the four operations undoes itself. -/

namespace Sys2Proof.Machine

/-! ### Where the reversals move bits and bytes -/

theorem getLsbD_rbitValue {w : Width} {i : Nat} (hi : i < w.bits) (a : Pattern w) :
    (rbitValue w a).getLsbD i = a.getLsbD (w.bits - 1 - i) :=
  getLsbD_patternOf_of_lt _ hi

/-- The bytes of the operand are the low bytes of the port word. -/
theorem byteOf_operandA {t : Ty} {k : Nat} (hk : k < t.width.bytes) (x : Word) : byteOf k (operandA t x) = byteOf k x := by
  refine BitVec.eq_of_getLsbD_eq fun j hj => ?_
  have hbit : 8 * k + j < t.width.bits := by have := bits_eq_mul_bytes t.width; omega
  rw [getLsbD_byteOf k _ hj, getLsbD_byteOf k _ hj, getLsbD_operandA hbit]

/-! ### The endian conversions -/

section Conversions
variable (e : Endian) (w : Width) (a : Pattern w)

/-- The native bytes of `tobe` are the big-endian bytes of its operand: where the native order is little-endian, `bswap`
exchanges the two sequences (R43, R162, R163). -/
theorem seqNE_tobeValue : seqNE e w (tobeValue e w a) = seqBE w a := by
  cases e with
  | little => exact seqLE_bswapValue w a
  | big => rfl

/-- The native bytes of `tole` are the little-endian bytes of its operand (R43, R162, R164). -/
theorem seqNE_toleValue : seqNE e w (toleValue e w a) = seqLE w a := by
  cases e with
  | little => rfl
  | big => exact seqBE_bswapValue w a

end Conversions

/-! ### Each operation undoes itself (R166) -/

section Involutions
variable (e : Endian) (w : Width)

theorem rbitValue_involutive : (rbitValue w).Involutive := by
  refine fun a => BitVec.eq_of_getLsbD_eq fun i hi => ?_
  rw [getLsbD_rbitValue hi, getLsbD_rbitValue (Nat.sub_one_sub_lt hi), Nat.sub_sub_self (Nat.le_sub_one_of_lt hi)]

/-- Swapping twice keeps the little-endian sequence, which determines the pattern. -/
theorem bswapValue_involutive : (bswapValue w).Involutive := by
  intro a
  have hseq : seqLE w (bswapValue w (bswapValue w a)) = seqLE w a := by rw [seqLE_bswapValue, seqBE_bswapValue]
  rw [← ofSeqLE_seqLE w (bswapValue w (bswapValue w a)), hseq, ofSeqLE_seqLE]

theorem tobeValue_involutive : (tobeValue e w).Involutive := by
  cases e with
  | little => exact bswapValue_involutive w
  | big => exact fun _ => rfl

theorem toleValue_involutive : (toleValue e w).Involutive := by
  cases e with
  | little => exact fun _ => rfl
  | big => exact bswapValue_involutive w

end Involutions

/-- An instruction that places an involution of its operand gives the operand back when its Y is fed back to A. -/
theorem setWidth_coreFn_coreFn_of_involutive {p : Params} {i : Instr} {t : Ty} {f : Pattern t.width → Pattern t.width}
    (hf : f.Involutive) (hout : ∀ a b, opOut p i a b = result (f (operandA t a)) false) (a b b' : Word) :
    (coreFn p (encode i) (coreFn p (encode i) a b).y b').y.setWidth t.bits = a.setWidth t.bits := by
  have hback : operandA t (place (f (operandA t a))) = f (operandA t a) := setWidth_place t.width _
  calc (coreFn p (encode i) (coreFn p (encode i) a b).y b').y.setWidth t.bits
      = (place (f (operandA t (place (f (operandA t a)))))).setWidth t.bits := by
        rw [coreFn_encode, coreFn_encode, hout, hout]
        rfl
    _ = f (operandA t (place (f (operandA t a)))) := setWidth_place t.width _
    _ = operandA t a := by rw [hback, hf]

/-! ### The obligations -/

/-- Settles O30: `rbit` reads its bits, and `bswap` its bytes, from the other end of the operand, which lies in the low W
bits of A. -/
theorem reversalsMoveBitsAndBytes : Obligations.ReversalsMoveBitsAndBytes := by
  refine ⟨encodes_of_op (fun _ => rfl) (fun _ => rfl), encodes_of_op (fun _ => rfl) (fun _ => rfl), fun t s => ?_⟩
  refine ⟨rbitValue t.width (operandA t s.portA), bswapValue t.width (operandA t s.portA), exec_of_opOut rfl,
    exec_of_opOut rfl, fun i hi => ?_, fun k hk => ?_⟩
  · rw [getLsbD_rbitValue hi, getLsbD_operandA (Nat.sub_one_sub_lt hi)]
  · exact (byteOf_bswapValue hk _).trans (byteOf_operandA (Nat.sub_one_sub_lt hk) _)

/-- Settles O31: for either native order one conversion is the operand and the other its `bswap`, so their native bytes are
the operand's big-endian and little-endian bytes. -/
theorem endianConversionsFollowTheNativeOrder : Obligations.EndianConversionsFollowTheNativeOrder := by
  refine ⟨encodes_of_op (fun _ => rfl) (fun _ => rfl), encodes_of_op (fun _ => rfl) (fun _ => rfl), ?_⟩
  intro t s a
  refine ⟨tobeValue s.params.nativeEndian t.width a, toleValue s.params.nativeEndian t.width a, bswapValue t.width a,
    exec_of_opOut rfl, exec_of_opOut rfl, exec_of_opOut rfl, fun h => ?_, fun h => ?_, seqNE_tobeValue _ _ a,
    seqNE_toleValue _ _ a⟩
  · rw [h]
    exact ⟨rfl, rfl⟩
  · rw [h]
    exact ⟨rfl, rfl⟩

/-- Settles O32: the four values are involutions; a big-endian core makes `tobe` the identity and a little-endian one `tole`;
`bswap` moves the 1 of the two-byte pattern 1. -/
theorem reversalsAreInvolutions : Obligations.ReversalsAreInvolutions := by
  refine ⟨fun p t i hi => ?undo, fun p => ?identity, Claims.u .w16, 1, fun p b => ?swapMoves⟩
  case undo =>
    simp only [List.mem_cons, List.not_mem_nil, or_false] at hi
    obtain rfl | rfl | rfl | rfl := hi
    · exact setWidth_coreFn_coreFn_of_involutive (rbitValue_involutive t.width) fun _ _ => rfl
    · exact setWidth_coreFn_coreFn_of_involutive (bswapValue_involutive t.width) fun _ _ => rfl
    · exact setWidth_coreFn_coreFn_of_involutive (tobeValue_involutive p.nativeEndian t.width) fun _ _ => rfl
    · exact setWidth_coreFn_coreFn_of_involutive (toleValue_involutive p.nativeEndian t.width) fun _ _ => rfl
  case identity =>
    simp only [coreFn_encode]
    obtain ⟨e, ptrBits⟩ := p
    cases e with
    | little => exact .inr fun t a b => ⟨rfl, rfl⟩
    | big => exact .inl fun t a b => ⟨rfl, rfl⟩
  case swapMoves =>
    have hmoved : (bswapOut (Claims.u .w16) 1).y ≠ ((1 : Word).setWidth (Claims.u .w16).bits).setWidth 64 := by decide
    rw [coreFn_encode]
    exact hmoved

end Sys2Proof.Machine
end

section
/-! SUPPORT. The result form statements (spec 45_result_forms.md R180 to R193, but for negation): what a form gives from the
value and the flag of its one command, the side of a saturation, absolute value, the masked shift, and what a compound
assignment leaves. -/

namespace Sys2Proof.Machine

/-! ### A form from the value and the flag of one command (R181) -/

/-- A form is told from Y, OVF and, where the operation has one, the exact result of the one command on the core. -/
theorem formOf_eq_surface_coreFn (f : Form) (p : Params) (i : Instr) (a b : Word) :
    formOf f p i a b = surface f i (exactOf i a b) (val i.ty ((coreFn p (encode i) a b).y.setWidth i.ty.bits))
      (coreFn p (encode i) a b).ovf := by
  rw [coreFn_encode]
  rfl

section Saturating
variable {i : Instr} {v : Int} {ovf : Bool}

theorem surface_saturating_of_isShift (h : isShift i = true) (n : Option Int) :
    surface .saturating i n v ovf = .refused .saturatingShift :=
  if_pos h

theorem surface_saturating_none (h : isShift i = false) : surface .saturating i none v ovf = .next (.value v) :=
  if_neg (Bool.eq_false_iff.1 h)

/-- A value in range saturates to itself. -/
theorem surface_saturating_of_inRange (h : isShift i = false) (hv : minOf i.ty ≤ v ∧ v ≤ maxOf i.ty) :
    surface .saturating i (some v) v ovf = .next (.value v) := by
  have hsat : saturate i.ty v v = v := by
    rw [saturate, if_neg (Int.not_lt.2 hv.2), if_neg (Int.not_lt.2 hv.1)]
  calc surface .saturating i (some v) v ovf = .next (.value (saturate i.ty v v)) := if_neg (Bool.eq_false_iff.1 h)
    _ = .next (.value v) := by rw [hsat]

end Saturating

/-- An operation other than add, sub, mul, shl and shr has no exact result, has a saturating form, and never overflows
(R191). -/
theorem cannotOverflow_of_notMem {i : Instr} (h : i ∉ [.add i.ty, .sub i.ty, .mul i.ty, .shl i.ty, .shr i.ty])
    (p : Params) (a b : Word) : exactOf i a b = none ∧ isShift i = false ∧ (coreFn p (encode i) a b).ovf = false := by
  rw [coreFn_encode]
  cases i with
  | add t | sub t | mul t | shl t | shr t => exact absurd (by simp [Instr.ty]) h
  | _ => exact ⟨rfl, rfl, rfl⟩

/-! ### The side of a saturation (R187) -/

section Signs
variable {n : Nat} {q r : BitVec n}

/-- The top bit of a pattern is the sign of its two's-complement value. -/
theorem sval_neg_iff_msb : sval q < 0 ↔ q.msb = true := by
  rw [sval_eq_toInt, BitVec.msb_eq_toInt, decide_eq_true_iff]

theorem sval_nonneg_iff_msb : 0 ≤ sval q ↔ q.msb = false := by
  rw [← Int.not_lt, sval_neg_iff_msb, Bool.not_eq_true]

theorem sval_mul_sval_nonneg (h : q.msb = r.msb) : 0 ≤ sval q * sval r := by
  cases hr : r.msb with
  | false => exact Int.mul_nonneg (sval_nonneg_iff_msb.2 (h.trans hr)) (sval_nonneg_iff_msb.2 hr)
  | true => exact (mul_pos_of_neg_of_neg (sval_neg_iff_msb.2 (h.trans hr)) (sval_neg_iff_msb.2 hr)).le

theorem sval_mul_sval_nonpos (h : q.msb ≠ r.msb) : sval q * sval r ≤ 0 := by
  cases hr : r.msb with
  | false =>
    have hq : q.msb = true := by simpa [hr] using h
    exact mul_nonpos_of_nonpos_of_nonneg (sval_neg_iff_msb.2 hq).le (sval_nonneg_iff_msb.2 hr)
  | true =>
    have hq : q.msb = false := by simpa [hr] using h
    exact mul_nonpos_of_nonneg_of_nonpos (sval_nonneg_iff_msb.2 hq) (sval_neg_iff_msb.2 hr).le

end Signs

theorem minOf_signed_neg (w : Width) : minOf (Claims.i w) < 0 := by
  rw [minOf_signed]
  exact Int.neg_neg_of_pos (by positivity)

theorem maxOf_signed_nonneg (w : Width) : 0 ≤ maxOf (Claims.i w) := by
  rw [maxOf_signed]
  exact Int.le_sub_one_of_lt (by positivity)

section Side
variable {i : Instr} {a b : Word} {n : Int}

/-- An exact result that is out of range and not below MIN saturates to MAX. -/
theorem formOf_saturating_of_minOf_le (h : exactOf i a b = some n) (hout : ¬(minOf i.ty ≤ n ∧ n ≤ maxOf i.ty))
    (hmin : minOf i.ty ≤ n) (p : Params) : formOf .saturating p i a b = .next (.value (maxOf i.ty)) := by
  have hmax : maxOf i.ty < n := Int.not_le.1 fun hle => hout ⟨hmin, hle⟩
  rw [formOf_saturating_of_exactOf h, min_eq_right hmax.le, max_eq_right (minOf_le_maxOf _)]

/-- An exact result that is out of range and not above MAX saturates to MIN. -/
theorem formOf_saturating_of_le_maxOf (h : exactOf i a b = some n) (hout : ¬(minOf i.ty ≤ n ∧ n ≤ maxOf i.ty))
    (hmax : n ≤ maxOf i.ty) (p : Params) : formOf .saturating p i a b = .next (.value (minOf i.ty)) := by
  have hmin : n < minOf i.ty := Int.not_le.1 fun hle => hout ⟨hle, hmax⟩
  rw [formOf_saturating_of_exactOf h, min_eq_left hmax, max_eq_left hmin.le]

/-- The exact result lies on the side told from the operands, or in range: a sum or difference differs from its first operand,
which is in range, in the direction the second one tells, and a product has the sign its operands' signs tell. -/
theorem saturationSide_cases (h : exactOf i a b = some n) :
    (saturationSide i a b = some (maxOf i.ty) ∧ minOf i.ty ≤ n) ∨
      (saturationSide i a b = some (minOf i.ty) ∧ n ≤ maxOf i.ty) := by
  cases i with
  | add t =>
    cases h
    obtain ⟨hmin, hmax⟩ := (inRange_iff t _).1 (val_inRange t (operandA t a))
    rcases t with ⟨_ | _, w⟩
    · exact .inl ⟨rfl, hmin.trans (Int.le_add_of_nonneg_right (uval_nonneg _))⟩
    · by_cases hb : 0 ≤ sval (operandB (Claims.i w) b)
      · exact .inl ⟨congrArg some (if_pos hb), hmin.trans (Int.le_add_of_nonneg_right hb)⟩
      · exact .inr ⟨congrArg some (if_neg hb), (add_le_of_nonpos_right (Int.not_le.1 hb).le).trans hmax⟩
  | sub t =>
    cases h
    obtain ⟨hmin, hmax⟩ := (inRange_iff t _).1 (val_inRange t (operandA t a))
    rcases t with ⟨_ | _, w⟩
    · exact .inr ⟨rfl, (Int.sub_le_self _ (uval_nonneg _)).trans hmax⟩
    · by_cases hb : sval (operandB (Claims.i w) b) < 0
      · exact .inl ⟨congrArg some (if_pos hb), hmin.trans ((le_sub_self_iff _).2 hb.le)⟩
      · exact .inr ⟨congrArg some (if_neg hb), (Int.sub_le_self _ (Int.not_lt.1 hb)).trans hmax⟩
  | mul t =>
    cases h
    rcases t with ⟨_ | _, w⟩
    · exact .inl ⟨rfl, Int.mul_nonneg (uval_nonneg _) (uval_nonneg _)⟩
    · by_cases hm : (operandA (Claims.i w) a).msb = (operandB (Claims.i w) b).msb
      · exact .inl ⟨congrArg some (if_neg (not_not.2 hm)), (minOf_signed_neg w).le.trans (sval_mul_sval_nonneg hm)⟩
      · exact .inr ⟨congrArg some (if_pos hm), (sval_mul_sval_nonpos hm).trans (maxOf_signed_nonneg w)⟩
  | _ => cases h

end Side

/-! ### Absolute value (R189) -/

section AbsoluteValue
variable (w : Width)

theorem sval_inRange (q : Pattern w) : minOf (Claims.i w) ≤ sval q ∧ sval q ≤ maxOf (Claims.i w) :=
  (inRange_iff (Claims.i w) _).1 (val_inRange (Claims.i w) q)

/-- The absolute value of a signed value other than MIN is in range. -/
theorem abs_sval_inRange {q : Pattern w} (hne : sval q ≠ minOf (Claims.i w)) :
    minOf (Claims.i w) ≤ |sval q| ∧ |sval q| ≤ maxOf (Claims.i w) := by
  obtain h | h := abs_choice (sval q) <;> rw [h]
  · exact sval_inRange w q
  · exact neg_inRange_of_ne_minOf w (sval_inRange w q) hne

/-- The absolute value of a signed value, MIN included, is in the unsigned range. -/
theorem abs_sval_inRange_unsigned (q : Pattern w) : minOf (Claims.u w) ≤ |sval q| ∧ |sval q| ≤ maxOf (Claims.u w) := by
  have hpow : (2 : Int) ^ w.bits = 2 ^ (w.bits - 1) * 2 := by rw [← pow_succ, Nat.sub_add_cancel (bits_pos w)]
  have hpos : (0 : Int) < 2 ^ (w.bits - 1) := by positivity
  have hq := sval_inRange w q
  rw [minOf_signed, maxOf_signed] at hq
  rw [minOf_unsigned, maxOf_unsigned, hpow]
  exact ⟨abs_nonneg _, abs_le.2 (by omega)⟩

/-- A form of the absolute value of x ≠ MIN is told from |x|, with OVF = 0. -/
theorem absForm_of_ne_minOf {x : Word} (hne : sval (x.setWidth w.bits) ≠ minOf (Claims.i w)) (f : Form) (p : Params) :
    absForm f p w x =
      surface f (.sub (Claims.i w)) (some |sval (x.setWidth w.bits)|) |sval (x.setWidth w.bits)| false := by
  have habs := abs_sval_inRange w hne
  by_cases h0 : 0 ≤ sval (x.setWidth w.bits)
  · rw [abs_of_nonneg h0]
    exact if_pos h0
  · rw [abs_of_neg (Int.not_le.1 h0)] at habs ⊢
    exact (if_neg h0).trans (formOf_of_inRange (exactOf_sub_zero _ x) habs f p)

/-- A form of the absolute value of MIN is the negation's. -/
theorem absForm_of_eq_minOf {x : Word} (h : sval (x.setWidth w.bits) = minOf (Claims.i w)) (f : Form) (p : Params) :
    absForm f p w x = negForm f p (Claims.i w) x :=
  if_neg (Int.not_le.2 (h.trans_lt (minOf_signed_neg w)))

/-- `unsigned_abs` is exact: |x| is in the unsigned range and congruent to the pattern of x, or of its negation. -/
theorem unsignedAbs_eq_abs (p : Params) (x : Word) : unsignedAbs p w x = |sval (x.setWidth w.bits)| := by
  have habs := abs_sval_inRange_unsigned w (x.setWidth w.bits)
  by_cases h0 : 0 ≤ sval (x.setWidth w.bits)
  · rw [abs_of_nonneg h0] at habs ⊢
    calc unsignedAbs p w x = uval (x.setWidth w.bits) := if_pos h0
      _ = sval (x.setWidth w.bits) % 2 ^ w.bits := (val_emod (Claims.i w) _).symm
      _ = sval (x.setWidth w.bits) := Int.emod_eq_of_lt h0 (Int.lt_of_le_sub_one habs.2)
  · rw [abs_of_neg (Int.not_le.1 h0)] at habs ⊢
    have hneg : outValue (Claims.u w) (opOut p (.sub (Claims.u w)) 0 x) =
        val (Claims.u w) (enc w.bits (-uval (x.setWidth w.bits))) := by
      rw [opOut_of_exactOf (exactOf_sub_zero (Claims.u w) x)]
      exact congrArg (val (Claims.u w)) (setWidth_place w _)
    calc unsignedAbs p w x = outValue (Claims.u w) (opOut p (.sub (Claims.u w)) 0 x) := if_neg h0
      _ = val (Claims.u w) (enc w.bits (-uval (x.setWidth w.bits))) := hneg
      _ = -sval (x.setWidth w.bits) :=
        val_enc_eq_of_modEq habs (val_modEq .signed .unsigned (w := w) (x.setWidth w.bits)).neg

end AbsoluteValue

/-! ### The masked shift (R190) -/

section Shifts
variable {t : Ty} {i : Instr}

/-- A masked amount is below 2^32 and below W: masking it again leaves it. -/
theorem maskedAmount_ofNat_mod (t : Ty) (n : Nat) : maskedAmount t (BitVec.ofNat 64 (n % t.bits)) = n % t.bits := by
  have hlt : n % t.bits < t.bits := Nat.mod_lt n (bits_pos t.width)
  have hle : t.bits ≤ 64 := bits_le_port t.width
  rw [maskedAmount_eq, BitVec.toNat_ofNat, Nat.mod_eq_of_lt (b := 2 ^ 64) (by omega),
    Nat.mod_eq_of_lt (b := 2 ^ 32) (by omega), Nat.mod_eq_of_lt hlt]

/-- A shift gives the Y of the command with the masked amount (R121, R123). -/
theorem opOut_y_masked (h : i = .shl t ∨ i = .shr t) (p : Params) (a b : Word) :
    (opOut p i a b).y = (opOut p i a (BitVec.ofNat 64 (b.toNat % 2 ^ 32 % t.bits))).y := by
  have hamt : maskedAmount t b = maskedAmount t (BitVec.ofNat 64 (b.toNat % 2 ^ 32 % t.bits)) := by
    rw [maskedAmount_ofNat_mod, maskedAmount_eq]
  obtain rfl | rfl := h
  · exact congrArg (fun s => place (shlValue t.width (operandA t a) s)) hamt
  · exact congrArg (fun s => place (shrValue t (operandA t a) s)) hamt

/-- A form of a shift is told from the value of the masked shift and whether the amount is W or more. -/
theorem formOf_of_shift (h : i = .shl t ∨ i = .shr t) (f : Form) (p : Params) (a b : Word) :
    formOf f p i a b = surface f i none
      (val t ((opOut p i a (BitVec.ofNat 64 (b.toNat % 2 ^ 32 % t.bits))).y.setWidth t.bits))
      (decide (t.bits ≤ b.toNat % 2 ^ 32)) := by
  rw [← opOut_y_masked h, ← amountOverflow_eq]
  obtain rfl | rfl := h <;> rfl

end Shifts

/-! ### What a compound assignment leaves (R193) -/

section Compound
variable {i : Instr} {x : Var} {rhs : Src} {s : State} {a b : Word}

theorem compoundAssign_of_ovf_false (ha : s.readVar x = some a) (hb : s.readSrc rhs = .ok b)
    (hovf : (coreFn s.params (encode i) a b).ovf = false) : ∃ t, compoundAssign i x rhs s = .next t ∧
      t.readVar x = some (coreFn s.params (encode i) a b).y ∧ t.status = s.status :=
  ⟨_, (compoundAssign_eq ha hb).trans (congrArg _ (if_neg (Bool.eq_false_iff.1 hovf))),
    lookupVar_insertVar_same x _ s.vars, rfl⟩

theorem compoundAssign_of_ovf_true (ha : s.readVar x = some a) (hb : s.readSrc rhs = .ok b)
    (hovf : (coreFn s.params (encode i) a b).ovf = true) : ∃ t, compoundAssign i x rhs s = .next t ∧
      t.readVar x = some a ∧ t.status = .failed (Config.hardFailureMessage i) :=
  ⟨_, (compoundAssign_eq ha hb).trans (congrArg _ (if_pos hovf)), ha, rfl⟩

end Compound

/-! ### The obligations -/

/-- Settles O45: in range the command gives the exact result with OVF = 0, out of range the wrapped one with OVF = 1. -/
theorem arithmeticForms : Obligations.ArithmeticForms := fun p _ _ _ _ h =>
  ⟨fun hn => have hform := fun f => formOf_of_inRange h hn f p
    ⟨hform _, hform _, hform _, hform _⟩,
  fun hn => have hform := fun f => formOf_of_outOfRange h hn f p
    ⟨hform _, hform _, ⟨_, hform _⟩, hform _⟩⟩

/-- Settles O46: to saturate the wrapped result is to clamp the exact one. -/
theorem saturatingForms : Obligations.SaturatingForms := fun p _ _ _ _ h => formOf_saturating_of_exactOf h p

/-- Settles O47: the exact result is out of range and not past the other bound than the one the operands tell. -/
theorem saturationSideFromOperands : Obligations.SaturationSideFromOperands := by
  intro p i a b n h hovf
  rw [opOut_of_exactOf h] at hovf
  have hout := (rangeOverflow_iff i.ty n).1 hovf
  obtain ⟨hside, hmin⟩ | ⟨hside, hmax⟩ := saturationSide_cases h
  · exact ⟨_, hside, formOf_saturating_of_minOf_le h hout hmin p⟩
  · exact ⟨_, hside, formOf_saturating_of_le_maxOf h hout hmax p⟩

/-- Settles O49: |x| is in range for x ≠ MIN; for MIN the forms are those of the negation, settled with O48. -/
theorem absoluteValueForms : Obligations.AbsoluteValueForms := by
  intro p w x t v
  refine ⟨unsignedAbs_eq_abs w p x, fun hne => ?_, fun hmin => ?_⟩
  · have hform := fun f => absForm_of_ne_minOf w hne f p
    exact ⟨hform _, hform _, (hform _).trans (surface_saturating_of_inRange rfl (abs_sval_inRange w hne)), hform _⟩
  · obtain ⟨-, hsigned, -⟩ := negationForms
    obtain ⟨-, hwrapping, hsaturating, hchecked, hdefault⟩ := (hsigned p w x).2 hmin
    simp only [absForm_of_eq_minOf w hmin]
    exact ⟨hdefault, hchecked, hsaturating, hwrapping⟩

/-- Settles O50: a shift gives the value of the masked shift, with OVF when the amount is W or more, and is one of the two
operations whose saturating form is refused. -/
theorem shiftForms : Obligations.ShiftForms := by
  intro p t i h a b amt v
  have hform : ∀ f, formOf f p i a b = surface f i none v (decide (t.bits ≤ amt)) := fun f => by
    rw [formOf_of_shift h, ← coreFn_encode]
  have hshift : isShift i = true := by obtain rfl | rfl := h <;> rfl
  refine ⟨hform _, hform _, (hform _).trans (surface_saturating_of_isShift hshift _), fun hle => ?_, fun hlt => ?_⟩
  · rw [decide_eq_true hle] at hform
    exact ⟨hform _, _, hform _⟩
  · rw [decide_eq_false (Nat.not_le.2 hlt)] at hform
    exact ⟨hform _, hform _⟩

/-- Settles O52: with OVF = 0 the command's Y is written, whose value is the default form's result; with OVF = 1 the default
form is the hard failure the run ends with. -/
theorem compoundAssignmentReplacesTheHeldValue : Obligations.CompoundAssignmentReplacesTheHeldValue := by
  intro s i x rhs a b ha hb
  have hform := formOf_eq_surface_coreFn .default s.params i a b
  cases hovf : (coreFn s.params (encode i) a b).ovf with
  | false =>
    obtain ⟨t, ht, hx, hstatus⟩ := compoundAssign_of_ovf_false ha hb hovf
    rw [hovf] at hform
    refine ⟨t, ht, fun v hv => ⟨_, hx, ?_, hstatus⟩, fun msg hmsg => ?_⟩
    · cases hform.symm.trans hv
      rfl
    · cases hform.symm.trans hmsg
  | true =>
    obtain ⟨t, ht, hx, hstatus⟩ := compoundAssign_of_ovf_true ha hb hovf
    rw [hovf] at hform
    refine ⟨t, ht, fun v hv => ?_, fun msg hmsg => ?_⟩
    · cases hform.symm.trans hv
    · cases hform.symm.trans hmsg
      exact ⟨hx, hstatus⟩

/-- Settles O44: every form but the saturating one is told from v and OVF of the one command. -/
theorem formsSurfaceOneCommand : Obligations.FormsSurfaceOneCommand := by
  intro p i a b o v
  have hform : ∀ f, formOf f p i a b = surface f i (exactOf i a b) v o.ovf := fun f => formOf_eq_surface_coreFn f p i a b
  refine ⟨hform _, hform _, fun hovf => ?_, fun hovf => ?_⟩ <;> rw [hovf] at hform
  · exact ⟨hform _, hform _, hform _⟩
  · exact ⟨⟨_, hform _⟩, hform _, hform _⟩

/-- Settles O51: without an exact result and without an overflow, every form is told from the value of Y alone. -/
theorem otherFormsNeverFail : Obligations.OtherFormsNeverFail := by
  intro p i a b hi
  obtain ⟨hexact, hshift, hovf⟩ := cannotOverflow_of_notMem hi p a b
  have hform := fun f => formOf_eq_surface_coreFn f p i a b
  rw [hexact, hovf] at hform
  exact ⟨hovf, hform _, hform _, hform _, hform _, (hform _).trans (surface_saturating_none hshift), hform _⟩

end Sys2Proof.Machine
end

section
/-! SUPPORT. The statements about the start of a host program and about command lines in a row (spec
70_reset_and_hazards.md R221, R222): what a start list leaves in the host variables, and what a command line reads after
another one. -/

namespace Sys2Proof.Machine

/-! ### The start list (R77, R221; log 24) -/

/-- The last entry for a variable holds. -/
theorem lookupVar_writes_last {x : Nat} {rest : List (Nat × Word)} (h : x ∉ rest.map (fun kv => kv.1)) (w : Word)
    (before vs : List (Nat × Word)) :
    lookupVar x ((before ++ (x, w) :: rest).foldl (fun vs kv => insertVar kv.1 kv.2 vs) vs) = some w := by
  rw [List.foldl_append, List.foldl_cons, lookupVar_writes_other h, lookupVar_insertVar_same]

/-- Loading leaves the ports and the outputs, and writes the variables in canonical form. -/
theorem State.Inv.load {s : State} (h : s.Inv) (prog : List Line) (start : List (Var × Word)) : (s.load prog start).Inv :=
  ⟨varsWf_writes start rfl, h.outputs, h.ill, rfl⟩

/-! ### What a source reads -/

section Sources
variable {s t : State}

/-- A source is read from the host variables alone. -/
theorem readSrc_eq_of_vars (h : s.vars = t.vars) (src : Src) : s.readSrc src = t.readSrc src := by
  cases src with
  | word w => rfl
  | var x => simp only [State.readSrc, State.readVar, h]

/-- B is read from the host variables and, with one source, from the port B (log 8). -/
theorem readSrcB_eq_of_vars_of_portB (h : s.vars = t.vars) (hB : s.portB = t.portB) (srcB : Option Src) :
    s.readSrcB srcB = t.readSrcB srcB := by
  cases srcB with
  | none => exact congrArg Except.ok hB
  | some src => exact readSrc_eq_of_vars h src

theorem readSrc_of_insertVar_same {x : Var} {w : Word} {vs : List (Var × Word)} (h : s.vars = insertVar x w vs) :
    s.readSrc (.var x) = .ok w := by
  simp only [State.readSrc, State.readVar, h, lookupVar_insertVar_same]

end Sources

/-! ### A step over a command line -/

theorem step_of_legal_command {s : State} {dst : Var} {cmd : CmdWord} {srcA : Src} {srcB : Option Src} {a b : Word}
    (hs : s.status = .running) (hl : s.prog[s.line]? = some (.command dst cmd srcA srcB))
    (ha : s.readSrc srcA = .ok a) (hb : s.readSrcB srcB = .ok b) (hlegal : legal cmd = true) :
    step s = .next (((s.drive cmd a b).setOut (coreFn s.params cmd a b)).latch dst) :=
  (step_eq_runLine hs hl).trans (runCommand_of_legal ha hb hlegal dst)

/-! ### The obligations -/

/-- Settles O60: loading sets each field it names, and its variables are those its start list writes, from none. -/
theorem loadedProgramsStartAtLineZero : Obligations.LoadedProgramsStartAtLineZero := by
  intro s prog start t
  refine ⟨rfl, rfl, rfl, rfl, rfl, rfl, rfl, rfl, rfl, rfl, varsWf_writes start rfl, fun h => h.load prog start,
    fun x hx => lookupVar_writes_other hx [], fun x w before rest hstart hx => ?_⟩
  subst hstart
  exact lookupVar_writes_last hx w before []

/-- Settles O58: the first line leaves its Y in its destination and its word on B, and the second reads its sources from
these. -/
theorem backToBackCommandsNeedNoWait : Obligations.BackToBackCommandsNeedNoWait := by
  intro s d e c c' srcA srcA' srcB srcB' a b a' b' hs hl hl' ha hb hlegal hlegal' y after ha' hb'
  have hY : after.readSrc (.var d) = .ok y := readSrc_of_insertVar_same rfl
  refine ⟨fun h => ?fromA, fun h => ?fromB, ?run⟩
  case fromA =>
    rw [h, hY] at ha'
    exact (Except.ok.inj ha').symm
  case fromB =>
    rw [h, State.readSrcB, hY] at hb'
    exact (Except.ok.inj hb').symm
  case run =>
    have hfirst := step_of_legal_command hs hl ha hb hlegal
    have hsecond := step_of_legal_command (s := ((s.drive c a b).setOut (coreFn s.params c a b)).latch d) hs hl'
      ((readSrc_eq_of_vars rfl srcA').trans ha') ((readSrcB_eq_of_vars_of_portB rfl rfl srcB').trans hb') hlegal'
    exact ⟨_, (run_next 1 hfirst).trans (run_next 0 hsecond), rfl, rfl, readVar_writeVar_same _ e _,
      fun z hd he => (readVar_writeVar_other he _ _).trans (readVar_writeVar_other hd _ _)⟩

end Sys2Proof.Machine
end

section
/-! SUPPORT. The statement about a run that has ended (spec 30_encoding.md section 5; log 7). -/

namespace Sys2Proof.Machine

/-- Settles O57: `done` and `failed` are the two statuses that are not `running`, and a step answers the same fault in
both. -/
theorem endedRunsHaveNoNextLine : Obligations.EndedRunsHaveNoNextLine :=
  fun _ hs => step_of_ended hs

end Sys2Proof.Machine
end
